-- ==== Sys2Proof/Word.lean ====
section
/-!
DEFINITION. The widths the spec gives its values (00_scope.md R5, R7, R84): bytes, 16-bit words, the
12-bit and 4-bit fields of an opcode, and the index of a general register.  All quantities are unsigned.
-/
namespace Sys2Proof

/-- A byte: a V register, a timer, a memory cell or the immediate `nn` (R5, R84). -/
abbrev Byte := BitVec 8

/-- A 16-bit value: the program counter, the index register, a stack entry (R5). -/
abbrev Word := BitVec 16

/-- The 16-bit instruction word (R82). -/
abbrev Opcode := BitVec 16

/-- The 12-bit address field `nnn` of an opcode (R82, R84). -/
abbrev Addr12 := BitVec 12

/-- The 4-bit field `n` of an opcode (R82, R84). -/
abbrev Nibble := BitVec 4

/-- The index of a general register V0 to VF, or of a key 0 to F (R20, R182): 0 to 15. -/
abbrev Reg := Fin 16

/-- The register index as the 4 bits of an `x` or `y` field (R82). -/
def regBits (x : Reg) : Nibble := BitVec.ofFin x

/-- The 4 bits of an `x` or `y` field as a register index (R82). -/
def regOf (b : Nibble) : Reg := b.toFin

@[simp] theorem regOf_regBits (x : Reg) : regOf (regBits x) = x := rfl

@[simp] theorem regBits_regOf (b : Nibble) : regBits (regOf b) = b := rfl

end Sys2Proof
end

