-- ==== Sys2Proof/Config.lean ====
section
/-!
DEFINITION. What is fixed for the machine (00_scope.md R5, R6) and the values the spec leaves free.
The decided parameters FX1E_CLEAR_VF, SHIFT_USES_VY and FONT stand in Machine/Params.lean.
-/
namespace Sys2Proof.Config

/-- MEM_SIZE: "byte array, 4096 entries" (R5, R50). -/
def memSize : Nat := 4096

/-- ROM_BASE: where a program image is loaded (R5). -/
def romBase : Nat := 0x200

/-- FONT_BASE: the first byte of the glyph font (R5). -/
def fontBase : Nat := 0x050

/-- GLYPH_STRIDE: bytes per glyph (R5). -/
def glyphStride : Nat := 5

/-- SCREEN_W (R6, decision D1). PRESUMED: the spec marks the number as general knowledge (log entry 2). -/
def screenW : Nat := 64

/-- SCREEN_H (R6, decision D1). PRESUMED: the spec marks the number as general knowledge (log entry 2). -/
def screenH : Nat := 32

/-- The number of pixels, SCREEN_W × SCREEN_H (R30). -/
def pixelCount : Nat := screenW * screenH

/-- RAND (R218): the byte the `k`-th draw delivers.  A free value: nothing constrains it (log entry 7). -/
opaque randByte : Nat → Byte

/-- The free choice behind KEY_PICK (R217): which of the held keys counts as "the" pressed key, as a
number that `Machine.keyPick` reduces modulo how many are held.  A free value (log entry 8). -/
opaque keyChoice : BitVec 16 → Nat

end Sys2Proof.Config
end

