-- ==== Sys2Proof/Syntax.lean ====
section
/-!
DEFINITION. The instructions: one constructor per row of spec/opcode_table.json (30_encoding.md R88), and
one for its catch-all row, every word that matches no row (R89, R109).  Fields are those of R82 to R84;
`y` of 8xy6 and 8xyE is encoded and kept, though the decided convention ignores it (R130, R132).
-/
namespace Sys2Proof

/-- The instruction set (R88). -/
inductive Instr where
  /-- 00E0, CLS (R160). -/
  | cls
  /-- 00EE, RET (R100). -/
  | ret
  /-- 1nnn, JP nnn (R101). -/
  | jp (nnn : Addr12)
  /-- 2nnn, CALL nnn (R102). -/
  | call (nnn : Addr12)
  /-- 3xnn, SE Vx, nn (R104). -/
  | seImm (x : Reg) (nn : Byte)
  /-- 4xnn, SNE Vx, nn (R105). -/
  | sneImm (x : Reg) (nn : Byte)
  /-- 5xy0, SE Vx, Vy (R106). -/
  | seReg (x y : Reg)
  /-- 6xnn, LD Vx, nn (R122). -/
  | ldImm (x : Reg) (nn : Byte)
  /-- 7xnn, ADD Vx, nn (R123). -/
  | addImm (x : Reg) (nn : Byte)
  /-- 8xy0, LD Vx, Vy (R124). -/
  | ldReg (x y : Reg)
  /-- 8xy1, OR Vx, Vy (R125). -/
  | orReg (x y : Reg)
  /-- 8xy2, AND Vx, Vy (R126). -/
  | andReg (x y : Reg)
  /-- 8xy3, XOR Vx, Vy (R127). -/
  | xorReg (x y : Reg)
  /-- 8xy4, ADD Vx, Vy (R128). -/
  | addReg (x y : Reg)
  /-- 8xy5, SUB Vx, Vy (R129). -/
  | subReg (x y : Reg)
  /-- 8xy6, SHR Vx (R130). -/
  | shr (x y : Reg)
  /-- 8xy7, SUBN Vx, Vy (R131). -/
  | subnReg (x y : Reg)
  /-- 8xyE, SHL Vx (R132). -/
  | shl (x y : Reg)
  /-- 9xy0, SNE Vx, Vy (R107). -/
  | sneReg (x y : Reg)
  /-- Annn, LD I, nnn (R140). -/
  | ldI (nnn : Addr12)
  /-- Bnnn, JP V0, nnn (R108). -/
  | jpV0 (nnn : Addr12)
  /-- Cxnn, RND Vx, nn (R133). -/
  | rnd (x : Reg) (nn : Byte)
  /-- Dxyn, DRW Vx, Vy, n (R161). -/
  | drw (x y : Reg) (n : Nibble)
  /-- Ex9E, SKP Vx (R175). -/
  | skp (x : Reg)
  /-- ExA1, SKNP Vx (R176). -/
  | sknp (x : Reg)
  /-- Fx07, LD Vx, DT (R178). -/
  | ldVxDt (x : Reg)
  /-- Fx0A, LD Vx, K (R177). -/
  | ldVxK (x : Reg)
  /-- Fx15, LD DT, Vx (R179). -/
  | ldDtVx (x : Reg)
  /-- Fx18, LD ST, Vx (R180). -/
  | ldStVx (x : Reg)
  /-- Fx1E, ADD I, Vx (R141). -/
  | addI (x : Reg)
  /-- Fx29, LD F, Vx (R142). -/
  | ldF (x : Reg)
  /-- Fx33, LD B, Vx (R143). -/
  | ldB (x : Reg)
  /-- Fx55, LD [I], Vx: store V0 to Vx (R144). -/
  | storeRegs (x : Reg)
  /-- Fx65, LD Vx, [I]: load V0 to Vx (R145). -/
  | loadRegs (x : Reg)
  /-- Every other word: the unimplemented opcode, a no-op (R89, R109).  It keeps the word it stands for. -/
  | unimpl (op : Opcode)
  deriving DecidableEq, Repr

end Sys2Proof
end

