-- ==== Sys2Proof/WellFormed.lean ====
section
/-!
DEFINITION. The opcode map as mask and match pairs (30_encoding.md R88) and which terms of `Instr` are
instructions of the machine.  Register indices and immediates are bounded by their types; the one check
left is that an unimplemented opcode matches no row (R89).
-/
namespace Sys2Proof

/-- One row of the opcode map: an opcode op is the row's instruction iff `op & mask = want` (R88). -/
structure OpcodeRow where
  mask : Opcode
  want : Opcode
  deriving DecidableEq, Repr

/-- The word matches the row (R88). -/
def OpcodeRow.accepts (r : OpcodeRow) (op : Opcode) : Bool := op &&& r.mask == r.want

/-- The rows of families 0 to 7 (R88): 00E0 00EE 1nnn 2nnn 3xnn 4xnn 5xy0 6xnn 7xnn. -/
def opcodeRowsLow : List OpcodeRow :=
  [⟨0xFFFF, 0x00E0⟩, ⟨0xFFFF, 0x00EE⟩, ⟨0xF000, 0x1000⟩, ⟨0xF000, 0x2000⟩, ⟨0xF000, 0x3000⟩,
   ⟨0xF000, 0x4000⟩, ⟨0xF00F, 0x5000⟩, ⟨0xF000, 0x6000⟩, ⟨0xF000, 0x7000⟩]

/-- The rows of families 8 to D (R88): 8xy0 to 8xy7, 8xyE, 9xy0 Annn Bnnn Cxnn Dxyn. -/
def opcodeRowsMid : List OpcodeRow :=
  [⟨0xF00F, 0x8000⟩, ⟨0xF00F, 0x8001⟩, ⟨0xF00F, 0x8002⟩, ⟨0xF00F, 0x8003⟩, ⟨0xF00F, 0x8004⟩,
   ⟨0xF00F, 0x8005⟩, ⟨0xF00F, 0x8006⟩, ⟨0xF00F, 0x8007⟩, ⟨0xF00F, 0x800E⟩, ⟨0xF00F, 0x9000⟩,
   ⟨0xF000, 0xA000⟩, ⟨0xF000, 0xB000⟩, ⟨0xF000, 0xC000⟩, ⟨0xF000, 0xD000⟩]

/-- The rows of families E and F (R88): Ex9E ExA1 Fx07 Fx0A Fx15 Fx18 Fx1E Fx29 Fx33 Fx55 Fx65. -/
def opcodeRowsHigh : List OpcodeRow :=
  [⟨0xF0FF, 0xE09E⟩, ⟨0xF0FF, 0xE0A1⟩, ⟨0xF0FF, 0xF007⟩, ⟨0xF0FF, 0xF00A⟩, ⟨0xF0FF, 0xF015⟩,
   ⟨0xF0FF, 0xF018⟩, ⟨0xF0FF, 0xF01E⟩, ⟨0xF0FF, 0xF029⟩, ⟨0xF0FF, 0xF033⟩, ⟨0xF0FF, 0xF055⟩,
   ⟨0xF0FF, 0xF065⟩]

/-- The complete opcode map: 34 rows (R88). -/
def opcodeRows : List OpcodeRow := opcodeRowsLow ++ opcodeRowsMid ++ opcodeRowsHigh

/-- The word is one of the 34 instructions: it matches a row of the map (R88, R89). -/
def isInstruction (op : Opcode) : Bool := opcodeRows.any (·.accepts op)

/-- The term stands for an instruction of the machine (R88, R89). -/
def Instr.wf (i : Instr) : Bool :=
  match i with
  | .unimpl op => !isInstruction op
  | .cls => true
  | .ret => true
  | .jp _ => true
  | .call _ => true
  | .seImm _ _ => true
  | .sneImm _ _ => true
  | .seReg _ _ => true
  | .ldImm _ _ => true
  | .addImm _ _ => true
  | .ldReg _ _ => true
  | .orReg _ _ => true
  | .andReg _ _ => true
  | .xorReg _ _ => true
  | .addReg _ _ => true
  | .subReg _ _ => true
  | .shr _ _ => true
  | .subnReg _ _ => true
  | .shl _ _ => true
  | .sneReg _ _ => true
  | .ldI _ => true
  | .jpV0 _ => true
  | .rnd _ _ => true
  | .drw _ _ _ => true
  | .skp _ => true
  | .sknp _ => true
  | .ldVxDt _ => true
  | .ldVxK _ => true
  | .ldDtVx _ => true
  | .ldStVx _ => true
  | .addI _ => true
  | .ldF _ => true
  | .ldB _ => true
  | .storeRegs _ => true
  | .loadRegs _ => true

end Sys2Proof
end

