-- ==== Sys2Proof/Decode.lean ====
section
/-!
DEFINITION. The decoder (30_encoding.md R82, R85 to R87, R94), total on every word, and after it the
encoder, written from the formats of R83 and the patterns of R88.  An instruction is two bytes, the first
(at the lower address) the high one (20_memory.md R52).
-/
namespace Sys2Proof

/-- The first nibble `f`, bits 15 to 12: the instruction family (R82). -/
def fieldF (op : Opcode) : Nibble := op.extractLsb' 12 4

/-- The field `x`, bits 11 to 8 (R82). -/
def fieldX (op : Opcode) : Reg := regOf (op.extractLsb' 8 4)

/-- The field `y`, bits 7 to 4 (R82). -/
def fieldY (op : Opcode) : Reg := regOf (op.extractLsb' 4 4)

/-- The field `n`, bits 3 to 0 (R82). -/
def fieldN (op : Opcode) : Nibble := op.extractLsb' 0 4

/-- The field `nn`, bits 7 to 0 (R82). -/
def fieldNN (op : Opcode) : Byte := op.extractLsb' 0 8

/-- The field `nnn`, bits 11 to 0 (R82). -/
def fieldNNN (op : Opcode) : Addr12 := op.extractLsb' 0 12

/-- Family 0 matches the full opcode (R86, conflict C2). -/
def decodeFamily0 (op : Opcode) : Instr :=
  if op = 0x00E0 then .cls
  else if op = 0x00EE then .ret
  else .unimpl op

/-- Families 5 and 9 match the low nibble 0 only (R87, conflict C2). -/
def decodeIfN0 (op : Opcode) (i : Instr) : Instr :=
  if fieldN op = 0 then i else .unimpl op

/-- Family 8 matches the low nibble (R86). -/
def decodeFamily8 (op : Opcode) : Instr :=
  match (fieldN op).toNat with
  | 0x0 => .ldReg (fieldX op) (fieldY op)
  | 0x1 => .orReg (fieldX op) (fieldY op)
  | 0x2 => .andReg (fieldX op) (fieldY op)
  | 0x3 => .xorReg (fieldX op) (fieldY op)
  | 0x4 => .addReg (fieldX op) (fieldY op)
  | 0x5 => .subReg (fieldX op) (fieldY op)
  | 0x6 => .shr (fieldX op) (fieldY op)
  | 0x7 => .subnReg (fieldX op) (fieldY op)
  | 0xE => .shl (fieldX op) (fieldY op)
  | _ => .unimpl op

/-- Family E matches the low byte (R86). -/
def decodeFamilyE (op : Opcode) : Instr :=
  match (fieldNN op).toNat with
  | 0x9E => .skp (fieldX op)
  | 0xA1 => .sknp (fieldX op)
  | _ => .unimpl op

/-- Family F matches the low byte (R86). -/
def decodeFamilyF (op : Opcode) : Instr :=
  match (fieldNN op).toNat with
  | 0x07 => .ldVxDt (fieldX op)
  | 0x0A => .ldVxK (fieldX op)
  | 0x15 => .ldDtVx (fieldX op)
  | 0x18 => .ldStVx (fieldX op)
  | 0x1E => .addI (fieldX op)
  | 0x29 => .ldF (fieldX op)
  | 0x33 => .ldB (fieldX op)
  | 0x55 => .storeRegs (fieldX op)
  | 0x65 => .loadRegs (fieldX op)
  | _ => .unimpl op

/-- Decode one word: primary dispatch on the first nibble (R85), then the secondary dispatch of R86 and
R87.  Total, and a function of the word alone (R94). -/
def decode (op : Opcode) : Instr :=
  match (fieldF op).toNat with
  | 0x0 => decodeFamily0 op
  | 0x1 => .jp (fieldNNN op)
  | 0x2 => .call (fieldNNN op)
  | 0x3 => .seImm (fieldX op) (fieldNN op)
  | 0x4 => .sneImm (fieldX op) (fieldNN op)
  | 0x5 => decodeIfN0 op (.seReg (fieldX op) (fieldY op))
  | 0x6 => .ldImm (fieldX op) (fieldNN op)
  | 0x7 => .addImm (fieldX op) (fieldNN op)
  | 0x8 => decodeFamily8 op
  | 0x9 => decodeIfN0 op (.sneReg (fieldX op) (fieldY op))
  | 0xA => .ldI (fieldNNN op)
  | 0xB => .jpV0 (fieldNNN op)
  | 0xC => .rnd (fieldX op) (fieldNN op)
  | 0xD => .drw (fieldX op) (fieldY op) (fieldN op)
  | 0xE => decodeFamilyE op
  | _ => decodeFamilyF op

/-- The two bytes of an instruction as its word, big-endian (R52). -/
def opcodeOfBytes (hi lo : Byte) : Opcode := hi ++ lo

/-- The first byte of a word in memory: bits 15 to 8 (R52). -/
def highByte (w : Word) : Byte := w.extractLsb' 8 8

/-- The second byte of a word in memory: bits 7 to 0 (R52). -/
def lowByte (w : Word) : Byte := w.extractLsb' 0 8

/-- Why a byte string is no instruction.  No word is ever rejected (R94): only a string too short is. -/
inductive DecodeError where
  /-- Fewer than the two bytes every instruction has (R91). -/
  | truncated
  deriving DecidableEq, Repr

/-- Decode the instruction at the head of a byte string: its two bytes (R91), and the bytes left. -/
def decodeBytes (bytes : List Byte) : Except DecodeError (Instr × List Byte) :=
  match bytes with
  | hi :: lo :: rest => .ok (decode (opcodeOfBytes hi lo), rest)
  | _ => .error .truncated

/-- The host's question: the instruction the decoder reads from a table word.  The spec's words are 16
bits, stored high byte first (R52). -/
def decodeTableWord (nbits w : Nat) : Option Instr :=
  let word := BitVec.ofNat 16 (w % 2 ^ nbits)
  match decodeBytes [highByte word, lowByte word] with
  | .ok (i, _) => some i
  | .error _ => none

/-- Format ADDR: first nibble and `nnn` (R83). -/
def encodeAddr (f : Nibble) (nnn : Addr12) : Opcode := f ++ nnn

/-- Format REG_IMM: first nibble, `x`, `nn` (R83); REG_SUB with the sub-opcode as `nn`. -/
def encodeRegImm (f : Nibble) (x : Reg) (nn : Byte) : Opcode := f ++ (regBits x ++ nn : BitVec 12)

/-- Format REG_REG_N: first nibble, `x`, `y`, `n` (R83); REG_REG with the sub-opcode as `n`. -/
def encodeRegReg (f : Nibble) (x y : Reg) (n : Nibble) : Opcode :=
  f ++ (regBits x ++ (regBits y ++ n : BitVec 8) : BitVec 12)

/-- The word of an instruction (R83, R88). -/
def encode (i : Instr) : Opcode :=
  match i with
  | .cls => 0x00E0
  | .ret => 0x00EE
  | .jp nnn => encodeAddr 0x1 nnn
  | .call nnn => encodeAddr 0x2 nnn
  | .seImm x nn => encodeRegImm 0x3 x nn
  | .sneImm x nn => encodeRegImm 0x4 x nn
  | .seReg x y => encodeRegReg 0x5 x y 0x0
  | .ldImm x nn => encodeRegImm 0x6 x nn
  | .addImm x nn => encodeRegImm 0x7 x nn
  | .ldReg x y => encodeRegReg 0x8 x y 0x0
  | .orReg x y => encodeRegReg 0x8 x y 0x1
  | .andReg x y => encodeRegReg 0x8 x y 0x2
  | .xorReg x y => encodeRegReg 0x8 x y 0x3
  | .addReg x y => encodeRegReg 0x8 x y 0x4
  | .subReg x y => encodeRegReg 0x8 x y 0x5
  | .shr x y => encodeRegReg 0x8 x y 0x6
  | .subnReg x y => encodeRegReg 0x8 x y 0x7
  | .shl x y => encodeRegReg 0x8 x y 0xE
  | .sneReg x y => encodeRegReg 0x9 x y 0x0
  | .ldI nnn => encodeAddr 0xA nnn
  | .jpV0 nnn => encodeAddr 0xB nnn
  | .rnd x nn => encodeRegImm 0xC x nn
  | .drw x y n => encodeRegReg 0xD x y n
  | .skp x => encodeRegImm 0xE x 0x9E
  | .sknp x => encodeRegImm 0xE x 0xA1
  | .ldVxDt x => encodeRegImm 0xF x 0x07
  | .ldVxK x => encodeRegImm 0xF x 0x0A
  | .ldDtVx x => encodeRegImm 0xF x 0x15
  | .ldStVx x => encodeRegImm 0xF x 0x18
  | .addI x => encodeRegImm 0xF x 0x1E
  | .ldF x => encodeRegImm 0xF x 0x29
  | .ldB x => encodeRegImm 0xF x 0x33
  | .storeRegs x => encodeRegImm 0xF x 0x55
  | .loadRegs x => encodeRegImm 0xF x 0x65
  | .unimpl op => op

/-- The bytes of an instruction in memory order (R52). -/
def encodeBytes (i : Instr) : List Byte := [highByte (encode i), lowByte (encode i)]

end Sys2Proof
end

