-- ==== Sys2Proof/Machine/State.lean ====
section
/-!
DEFINITION. The machine's state (10_state.md R20 to R41), the reasons a step can stop, and the state after
reset (R40, R240).  State is plain data.  Fields that are the spec's: v, pc, i, stack, sp, dt, st, fb,
redraw, mem, fault.  Fields that are the model's own: keys (the KEYS input of R216, as it stands now), draws
(how many RAND bytes have been drawn, R218) and sched (the events the environment has lined up, R214).
-/
namespace Sys2Proof.Machine

/-- The fatal conditions (R34, R200 to R203), the values of the FAULT latch other than None.  The cycle that
raises one ANSWERS A NEXT STATE in which FAULT holds it (R207), and every later cycle does nothing (R208), so
no step of this model ends in `Host.Outcome.fault`; a claim about a program takes FAULT = None as a premise.
Safe: a claim cannot be proved of what a faulted machine would do next, since it does nothing. -/
inductive Fault where
  /-- Code 1.  Raised by 2nnn only, when sp = 16 (R201).  Safe: the spec's own fault. -/
  | stackOverflow
  /-- Code 2.  Raised by 00EE only, when sp = 0 (R202).  Safe: the spec's own fault. -/
  | stackUnderflow
  /-- Code 3.  Raised by fetch, Dxyn, Fx33, Fx55 and Fx65 for an address above 0xFFF (R203).  Safe: the
  spec's own fault, checked over the whole range before any write (R56). -/
  | memoryOutOfRange
  deriving DecidableEq, Repr

/-- Why the model gives a step no meaning. -/
inductive Refusal where
  /-- Raised by an arm of `exec` whose instruction has no meaning in this model.  Every row of the opcode
  table has its meaning, so nothing raises it.  Safe: nothing follows from a refused step. -/
  | notModelled (mnemonic : String)
  deriving DecidableEq, Repr

/-- The events that may come in any order while a program runs (R12, R214, R215), and a change of the
KEYS input between two of them (R216). -/
inductive RunEvent where
  /-- `Step`: one CPU cycle (R80). -/
  | step
  /-- `Tick`: one decrement of the timers (R181). -/
  | tick
  /-- `AckRedraw`: the display clears the redraw flag (R219). -/
  | ackRedraw
  /-- The KEYS input takes this value (R216). -/
  | keys (k : BitVec 16)
  deriving DecidableEq, Repr

/-- Memory: address and byte pairs, addresses rising, without the cells that hold their reset value
(`Memory.wf` in Machine/Memory.lean; R50, R242). -/
abbrev Memory := List Host.Cell

/-- The pixel buffer FB: SCREEN_W × SCREEN_H one-bit entries; pixel (row, col) is entry
`row * SCREEN_W + col`, entry k being bit k (R30; log entry 1). -/
abbrev Frame := BitVec Config.pixelCount

/-- The state of the core (R20 to R36), its two inputs and the environment's schedule. -/
structure State where
  /-- V[0] to V[15] (R20); V[15] is VF (R21). -/
  v : Vector Byte 16
  /-- The program counter (R22). -/
  pc : Word
  /-- The index register I (R24). -/
  i : Word
  /-- The call stack STACK[0] to STACK[15] (R26). -/
  stack : Vector Word 16
  /-- The stack pointer: the number of entries in use, 0 to 16 (R27). -/
  sp : Fin 17
  /-- DT, the delay timer (R28). -/
  dt : Byte
  /-- ST, the sound timer (R29). -/
  st : Byte
  /-- FB, the pixel buffer (R30). -/
  fb : Frame
  /-- REDRAW, the redraw-needed flag (R31). -/
  redraw : Bool
  /-- MEM (R32, R50). -/
  mem : Memory
  /-- FAULT (R34): `none` is None. -/
  fault : Option Fault
  /-- KEYS, the keypad input as it stands: bit k is 1 while key k is held (R216; log entry 6). -/
  keys : BitVec 16
  /-- The model's own: how many RAND bytes have been drawn (R218; log entry 7). -/
  draws : Nat
  /-- The model's own: the events lined up before the next ones, oldest first; when it is empty every
  next event is `Step` (R214; log entry 9). -/
  sched : List RunEvent
  deriving DecidableEq, Repr

/-- The state after the `Reset` event (R40, R240): the spec's values, and for STACK (R41), the inputs and
the schedule the values of log entries 5, 6, 7 and 9. -/
def State.reset : State where
  v := Vector.replicate 16 0
  pc := 0x0200
  i := 0
  stack := Vector.replicate 16 0
  sp := 0
  dt := 0
  st := 0
  fb := 0
  redraw := false
  mem := []
  fault := none
  keys := 0
  draws := 0
  sched := []

end Sys2Proof.Machine
end

