-- ==== Sys2Proof/Machine/Params.lean ====
section
/-!
DEFINITION. The parameters the source leaves open and the spec decides (00_scope.md R6): FX1E_CLEAR_VF,
SHIFT_USES_VY and the font bytes.  They stand here and not in Config.lean so that a test that shows the
hardware to differ can mend them.
-/
namespace Sys2Proof.Machine

/-- FX1E_CLEAR_VF (R6, R141, decision D7): whether Fx1E writes VF = 0 when it does not overflow
(log entry 10). -/
def fx1eClearVf : Bool := false

/-- SHIFT_USES_VY (R6, R130, R132, decision D20): whether 8xy6 and 8xyE first copy V[y] into V[x]
(log entry 11). -/
def shiftUsesVy : Bool := false

/-- Glyphs 0 to 7 of the font (R33).  PRESUMED: the spec gives the bytes from general knowledge (log entry 3). -/
def glyphsLow : List (List Byte) :=
  [[0xF0, 0x90, 0x90, 0x90, 0xF0], [0x20, 0x60, 0x20, 0x20, 0x70],
   [0xF0, 0x10, 0xF0, 0x80, 0xF0], [0xF0, 0x10, 0xF0, 0x10, 0xF0],
   [0x90, 0x90, 0xF0, 0x10, 0x10], [0xF0, 0x80, 0xF0, 0x10, 0xF0],
   [0xF0, 0x80, 0xF0, 0x90, 0xF0], [0xF0, 0x10, 0x20, 0x40, 0x40]]

/-- Glyphs 8 to F of the font (R33).  PRESUMED: the spec gives the bytes from general knowledge (log entry 3). -/
def glyphsHigh : List (List Byte) :=
  [[0xF0, 0x90, 0xF0, 0x90, 0xF0], [0xF0, 0x90, 0xF0, 0x10, 0xF0],
   [0xF0, 0x90, 0xF0, 0x90, 0x90], [0xE0, 0x90, 0xE0, 0x90, 0xE0],
   [0xF0, 0x80, 0x80, 0x80, 0xF0], [0xE0, 0x90, 0x90, 0x90, 0xE0],
   [0xF0, 0x80, 0xF0, 0x80, 0xF0], [0xF0, 0x80, 0xF0, 0x80, 0x80]]

/-- FONT[0..79] (R33). -/
def font : List Byte := (glyphsLow ++ glyphsHigh).flatten

end Sys2Proof.Machine
end

