-- ==== Sys2Proof/Machine/Memory.lean ====
section
/-!
DEFINITION. MEM, the one byte-addressed memory of 4096 bytes (20_memory.md R50, R57), as a sparse list in
canonical form.  What an address the list does not name reads as is the reset image (R242).
-/
namespace Sys2Proof.Machine

/-- An address exists iff it is at most 0xFFF (R50). -/
def validAddr (a : Nat) : Bool := a < Config.memSize

/-- `CheckRange(a, len)` passes (R9, R56): no address of the range lies above 0xFFF; computed on
unbounded naturals, and an empty range always passes. -/
def inRange (a len : Nat) : Bool := !(1 ≤ len && 0xFFF < a + len - 1)

/-- The reset image (R32, R33, R242): 0 but for the font at 0x050 to 0x09F. -/
def resetByte (a : Nat) : Byte :=
  if Config.fontBase ≤ a then font.getD (a - Config.fontBase) 0 else 0

/-- The canonical form: addresses strictly rising and valid, and no cell at its reset value. -/
abbrev Memory.wf (m : Memory) : Prop :=
  m.Pairwise (fun c d => c.1 < d.1) ∧ ∀ c ∈ m, validAddr c.1 = true ∧ c.2 ≠ resetByte c.1

/-- The byte at an address: the listed one, or the reset image's. -/
def Memory.read (m : Memory) (a : Nat) : Byte :=
  match m with
  | [] => resetByte a
  | (b, w) :: rest => if a = b then w else Memory.read rest a

/-- The cells for address `a` holding `w`, in front of `rest`: none where that is the reset value. -/
def Memory.cons (a : Nat) (w : Byte) (rest : Memory) : Memory :=
  if w = resetByte a then rest else (a, w) :: rest

/-- Put a byte at an address, keeping the canonical form. -/
def Memory.put (m : Memory) (a : Nat) (w : Byte) : Memory :=
  match m with
  | [] => Memory.cons a w []
  | (b, u) :: rest =>
    if a < b then Memory.cons a w ((b, u) :: rest)
    else if a = b then Memory.cons a w rest
    else (b, u) :: Memory.put rest a w

/-- `MemWrite(a, 1, w)` (R9).  An address above 0xFFF does not exist; every rule checks its range first
(R56), so the second branch is never reached (log entry 20). -/
def Memory.write (m : Memory) (a : Nat) (w : Byte) : Memory :=
  if validAddr a then Memory.put m a w else m

/-- Write the bytes one after the other from an address up. -/
def Memory.writeBytes (m : Memory) (a : Nat) (bytes : List Byte) : Memory :=
  match bytes with
  | [] => m
  | w :: rest => Memory.writeBytes (Memory.write m a w) (a + 1) rest

end Sys2Proof.Machine
end

