-- ==== Sys2Proof/Machine/Ops.lean ====
section
/-!
DEFINITION. The named operations over the state that every meaning is built from: the accessors, the call
stack (10_state.md R26, R27), the inputs (60_exceptions.md R216 to R218), the pixel buffer (R30), raising a
fault (R11, R207) and fetching an instruction (30_encoding.md R81).
-/
namespace Sys2Proof.Machine

/-- What a cycle, a meaning or an event answers. -/
abbrev Result := Host.Outcome State Fault Refusal

/-- The index of VF (R21). -/
def vf : Reg := 15

/-! ### Accessors and updates, one per field -/

/-- `V[x]` (R20). -/
def State.reg (s : State) (x : Reg) : Byte := s.v[x]

/-- `V[x] <- b` (R20). -/
def State.setReg (s : State) (x : Reg) (b : Byte) : State := { s with v := s.v.set x b }

/-- `pc <- w` (R22). -/
def State.setPc (s : State) (w : Word) : State := { s with pc := w }

/-- `I <- w` (R24). -/
def State.setI (s : State) (w : Word) : State := { s with i := w }

/-- `DT <- b` (R28). -/
def State.setDt (s : State) (b : Byte) : State := { s with dt := b }

/-- `ST <- b` (R29). -/
def State.setSt (s : State) (b : Byte) : State := { s with st := b }

/-- The pixel buffer replaced (R30). -/
def State.setFb (s : State) (f : Frame) : State := { s with fb := f }

/-- `REDRAW <- b` (R31). -/
def State.setRedraw (s : State) (b : Bool) : State := { s with redraw := b }

/-- The memory replaced (R32). -/
def State.setMem (s : State) (m : Memory) : State := { s with mem := m }

/-- `FAULT <- f` (R34). -/
def State.setFault (s : State) (f : Option Fault) : State := { s with fault := f }

/-- The KEYS input takes a value (R216). -/
def State.setKeys (s : State) (k : BitVec 16) : State := { s with keys := k }

/-- One more RAND byte has been drawn (R218). -/
def State.countDraw (s : State) : State := { s with draws := s.draws + 1 }

/-- The environment's schedule replaced (R214). -/
def State.setSched (s : State) (es : List RunEvent) : State := { s with sched := es }

/-! ### Faults -/

/-- The code of a value of FAULT: 0 None, 1 StackOverflow, 2 StackUnderflow, 3 MemoryOutOfRange (R34, R206). -/
def Fault.code : Option Fault → Nat
  | none => 0
  | some .stackOverflow => 1
  | some .stackUnderflow => 2
  | some .memoryOutOfRange => 3

/-- `raise F` (R11, R207): FAULT becomes F and the cycle ends at once; nothing else changes.  There is no
vector, no saved pc and no mode: control goes nowhere, and the core is halted (R208). -/
def raise (f : Fault) (s : State) : Result := .next (s.setFault (some f))

/-- `CheckRange(a, len)`, then the rest of the rule (R9, R56). -/
def checked (a len : Nat) (s : State) (rest : Result) : Result :=
  if inRange a len then rest else raise .memoryOutOfRange s

/-! ### Memory -/

/-- `MemRead(a, 1)` (R9, R55). -/
def State.readMem (s : State) (a : Nat) : Byte := Memory.read s.mem a

/-- `MemWrite(a, 1, w)` (R9, R55). -/
def State.writeMem (s : State) (a : Nat) (w : Byte) : State := s.setMem (Memory.write s.mem a w)

/-- Bytes written one after the other from an address up (R53). -/
def State.writeMemBytes (s : State) (a : Nat) (bytes : List Byte) : State :=
  s.setMem (Memory.writeBytes s.mem a bytes)

/-! ### The call stack -/

/-- `STACK[sp] <- w; sp <- sp + 1` for a stack that is not full (R27, R102). -/
def State.push (s : State) (w : Word) (h : s.sp.val < 16) : State :=
  { s with stack := s.stack.set s.sp.val w, sp := ⟨s.sp.val + 1, Nat.succ_lt_succ h⟩ }

/-- `STACK[sp - 1]`, the top entry of a stack that is not empty (R27). -/
def State.top (s : State) (h : 0 < s.sp.val) : Word :=
  s.stack[s.sp.val - 1]'(by have := s.sp.isLt; omega)

/-- `sp <- sp - 1` (R27, R100); the entry keeps its value (R41). -/
def State.pop (s : State) : State :=
  { s with sp := ⟨s.sp.val - 1, Nat.lt_of_le_of_lt (Nat.sub_le _ _) s.sp.isLt⟩ }

/-! ### The inputs -/

/-- `KeyDown(k)` (R9, R216). -/
def keyDown (s : State) (k : Reg) : Bool := s.keys.getLsbD k.val

/-- The keys held, lowest index first (R216). -/
def heldKeys (keys : BitVec 16) : List Reg := (List.finRange 16).filter fun k => keys.getLsbD k.val

/-- `KEY_PICK` over the keys held (R217): one of them, which one being the free value
`Config.keyChoice`; with one key held it is that key (log entry 8). -/
def keyPick (keys : BitVec 16) (held : List Reg) : Option Reg :=
  match held with
  | [] => none
  | [k] => some k
  | k :: more => (k :: more)[Config.keyChoice keys % (k :: more).length]?

/-- `PressedKey()` (R9, R217): none when no key is held, else `KEY_PICK(KEYS)`. -/
def pressedKey (s : State) : Option Reg := keyPick s.keys (heldKeys s.keys)

/-- `Rand()` (R9, R218): the byte this draw delivers; `State.countDraw` makes the next one fresh. -/
def rand (s : State) : Byte := Config.randByte s.draws

/-! ### The pixel buffer -/

/-- The entry of pixel (row, col) (R30). -/
def pixelIndex (row col : Nat) : Nat := row * Config.screenW + col

/-- `FB[row][col]` (R9, R30). -/
def pixel (f : Frame) (row col : Nat) : Bool := f.getLsbD (pixelIndex row col)

/-- `FB[row][col] <- FB[row][col] ^ 1` (R161). -/
def flipPixel (f : Frame) (row col : Nat) : Frame :=
  f ^^^ BitVec.twoPow Config.pixelCount (pixelIndex row col)

/-! ### The cycle's first half -/

/-- The opcode at `pc`: `MemRead(pc, 2)`, big-endian (R52, R81). -/
def opcodeAt (s : State) : Opcode :=
  opcodeOfBytes (s.readMem s.pc.toNat) (s.readMem (s.pc.toNat + 1))

/-- `pc <- pc + 2` (R80, R103). -/
def State.advance (s : State) : State := s.setPc (s.pc + 2)

/-! ### The environment's schedule -/

/-- The event that comes next: the first of the schedule, or `Step` where it is empty (R214). -/
def State.nextEvent (s : State) : RunEvent :=
  match s.sched with
  | [] => .step
  | e :: _ => e

/-- The state once the next event has been taken off the schedule. -/
def State.dropEvent (s : State) : State := s.setSched s.sched.tail

end Sys2Proof.Machine
end

