-- ==== Sys2Proof/Machine/Operands.lean ====
section
/-!
DEFINITION. The operand forms of the instruction set (30_encoding.md R84, 42_index_memory.md R146): a
register, an immediate taken as it stands, and the values formed from fields when an instruction executes.
-/
namespace Sys2Proof.Machine

/-- A 12-bit address as a 16-bit value: widened with zeros (R7, R84). -/
def addrWord (nnn : Addr12) : Word := nnn.setWidth 16

/-- A byte as a 16-bit value: widened with zeros (R7). -/
def byteWord (b : Byte) : Word := b.setWidth 16

/-- The target of Bnnn: `nnn + V[0]`, in 16 bits and never masked (R108). -/
def offsetTarget (nnn : Addr12) (s : State) : Word := addrWord nnn + byteWord (s.reg 0)

/-- The low four bits of a register as an index: the glyph of Fx29 (R142), the key of Ex9E and ExA1 (R182). -/
def lowNibble (b : Byte) : Reg := regOf (b.extractLsb' 0 4)

/-- The address of a font glyph: `0x050 + 5*(V[x] & 0x0F)` (R142). -/
def glyphAddr (b : Byte) : Word :=
  BitVec.ofNat 16 (Config.fontBase + Config.glyphStride * (lowNibble b).val)

/-- The effective address `I + k`: the unbounded sum (R146). -/
def effAddr (s : State) (k : Nat) : Nat := s.i.toNat + k

/-- The three decimal digits of a byte: hundreds, tens, ones (R143). -/
def bcdDigits (b : Byte) : List Byte := [b / 100, b / 10 % 10, b % 10]

/-- The registers V0 to Vx, V0 first (R144). -/
def regsUpTo (s : State) (x : Reg) : List Byte := s.v.toList.take (x.val + 1)

/-- The origin column of a draw: `V[x] & (SCREEN_W - 1)` (R161). -/
def originCol (s : State) (x : Reg) : Nat := (s.reg x).toNat &&& (Config.screenW - 1)

/-- The origin row of a draw: `V[y] & (SCREEN_H - 1)` (R161). -/
def originRow (s : State) (y : Reg) : Nat := (s.reg y).toNat &&& (Config.screenH - 1)

end Sys2Proof.Machine
end

