-- ==== Sys2Proof/Machine/Flags.lean ====
section
/-!
DEFINITION. The values VF takes (10_state.md R21, 41_alu.md R128 to R132, 42_index_memory.md R141).  Sums are
unbounded naturals (R8) and comparisons are of unsigned values.
-/
namespace Sys2Proof.Machine

/-- A flag as the byte VF holds: 1 or 0 (R21). -/
def flagByte (b : Bool) : Byte := if b then 1 else 0

/-- The carry of 8xy4: the unbounded sum exceeds 255 (R128, R134). -/
def carryOut (a b : Byte) : Bool := 255 < a.toNat + b.toNat

/-- The flag of 8xy5 and 8xy7: strictly greater (R129, R131, R134). -/
def above (a b : Byte) : Bool := b.toNat < a.toNat

/-- The flag of 8xy6: bit 0 before the shift (R130). -/
def lowBit (a : Byte) : Bool := a.getLsbD 0

/-- The flag of 8xyE: bit 7 before the shift (R132). -/
def highBit (a : Byte) : Bool := a.getLsbD 7

/-- The flag of Fx1E: the unbounded sum exceeds 0x0FFF (R141). -/
def indexOverflow (i : Word) (b : Byte) : Bool := 0x0FFF < i.toNat + b.toNat

end Sys2Proof.Machine
end

