-- ==== Sys2Proof/Machine/Alu.lean ====
section
/-!
DEFINITION. Register loads, arithmetic and logic (41_alu.md R120 to R134).  The statements of a rule run in
order, each on the state the one before it left (00_scope.md R10, R121; log entry 12).
-/
namespace Sys2Proof.Machine

/-- 6xnn (R122). -/
def execLdImm (x : Reg) (nn : Byte) (s : State) : Result := .next (s.setReg x nn)

/-- 7xnn (R123): no flag. -/
def execAddImm (x : Reg) (nn : Byte) (s : State) : Result := .next (s.setReg x (s.reg x + nn))

/-- 8xy0 (R124). -/
def execLdReg (x y : Reg) (s : State) : Result := .next (s.setReg x (s.reg y))

/-- 8xy1 (R125). -/
def execOrReg (x y : Reg) (s : State) : Result := .next (s.setReg x (s.reg x ||| s.reg y))

/-- 8xy2 (R126). -/
def execAndReg (x y : Reg) (s : State) : Result := .next (s.setReg x (s.reg x &&& s.reg y))

/-- 8xy3 (R127). -/
def execXorReg (x y : Reg) (s : State) : Result := .next (s.setReg x (s.reg x ^^^ s.reg y))

/-- 8xy4 (R128): the sum first, then the carry of the original operands into VF. -/
def execAddReg (x y : Reg) (s : State) : Result :=
  let c := carryOut (s.reg x) (s.reg y)
  .next ((s.setReg x (s.reg x + s.reg y)).setReg vf (flagByte c))

/-- 8xy5 (R129): VF first, then the difference of what the registers hold after that (R121). -/
def execSubReg (x y : Reg) (s : State) : Result :=
  let s1 := s.setReg vf (flagByte (above (s.reg x) (s.reg y)))
  .next (s1.setReg x (s1.reg x - s1.reg y))

/-- 8xy7 (R131): VF first, then the difference of what the registers hold after that (R121). -/
def execSubnReg (x y : Reg) (s : State) : Result :=
  let s1 := s.setReg vf (flagByte (above (s.reg y) (s.reg x)))
  .next (s1.setReg x (s1.reg y - s1.reg x))

/-- The first line of 8xy6 and 8xyE: `if SHIFT_USES_VY then V[x] <- V[y]` (R130, R132). -/
def shiftSource (usesVy : Bool) (x y : Reg) (s : State) : State :=
  if usesVy then s.setReg x (s.reg y) else s

/-- 8xy6 under either value of SHIFT_USES_VY (R130): VF first, then the shift. -/
def shiftRight (usesVy : Bool) (x y : Reg) (s : State) : Result :=
  let s0 := shiftSource usesVy x y s
  let s1 := s0.setReg vf (flagByte (lowBit (s0.reg x)))
  .next (s1.setReg x (s1.reg x >>> 1))

/-- 8xyE under either value of SHIFT_USES_VY (R132): VF first, then the shift. -/
def shiftLeft (usesVy : Bool) (x y : Reg) (s : State) : Result :=
  let s0 := shiftSource usesVy x y s
  let s1 := s0.setReg vf (flagByte (highBit (s0.reg x)))
  .next (s1.setReg x (s1.reg x <<< 1))

/-- 8xy6 (R130). -/
def execShr (x y : Reg) (s : State) : Result := shiftRight shiftUsesVy x y s

/-- 8xyE (R132). -/
def execShl (x y : Reg) (s : State) : Result := shiftLeft shiftUsesVy x y s

/-- Cxnn with the byte the draw delivers (R133). -/
def randomMasked (r : Byte) (x : Reg) (nn : Byte) (s : State) : State := s.setReg x (nn &&& r)

/-- Cxnn (R133): one fresh draw. -/
def execRnd (x : Reg) (nn : Byte) (s : State) : Result :=
  .next (randomMasked (rand s) x nn s.countDraw)

end Sys2Proof.Machine
end

