-- ==== Sys2Proof/Machine/Control.lean ====
section
/-!
DEFINITION. Control flow (40_control_flow.md R100 to R111).  A meaning runs after fetch has put pc at the
instruction's address plus 2 (30_encoding.md R81).
-/
namespace Sys2Proof.Machine

/-- A skip, taken or not (R103): `pc <- pc + 2` on the already advanced pc. -/
def skipIf (c : Bool) (s : State) : Result := .next (if c then s.advance else s)

/-- 00EE (R100). -/
def execRet (s : State) : Result :=
  if h : 0 < s.sp.val then .next ((s.setPc (s.top h)).pop) else raise .stackUnderflow s

/-- 1nnn (R101). -/
def execJp (nnn : Addr12) (s : State) : Result := .next (s.setPc (addrWord nnn))

/-- 2nnn (R102). -/
def execCall (nnn : Addr12) (s : State) : Result :=
  if h : s.sp.val < 16 then .next ((s.push s.pc h).setPc (addrWord nnn)) else raise .stackOverflow s

/-- 3xnn (R104). -/
def execSeImm (x : Reg) (nn : Byte) (s : State) : Result := skipIf (s.reg x == nn) s

/-- 4xnn (R105). -/
def execSneImm (x : Reg) (nn : Byte) (s : State) : Result := skipIf (s.reg x != nn) s

/-- 5xy0 (R106). -/
def execSeReg (x y : Reg) (s : State) : Result := skipIf (s.reg x == s.reg y) s

/-- 9xy0 (R107). -/
def execSneReg (x y : Reg) (s : State) : Result := skipIf (s.reg x != s.reg y) s

/-- Bnnn (R108). -/
def execJpV0 (nnn : Addr12) (s : State) : Result := .next (s.setPc (offsetTarget nnn s))

/-- Every word that matches no row of the opcode map: no operation (R89, R109, R204). -/
def execUnimpl (_op : Opcode) (s : State) : Result := .next s

end Sys2Proof.Machine
end

