-- ==== Sys2Proof/Machine/Display.lean ====
section
/-!
DEFINITION. The clear operation and the sprite engine (43_display.md R160 to R165), loop for loop as the rule
writes them, in terms of SCREEN_W and SCREEN_H.
-/
namespace Sys2Proof.Machine

/-- 00E0 (R160): every pixel 0, REDRAW set. -/
def execCls (s : State) : Result := .next ((s.setFb 0).setRedraw true)

/-- What a sprite bit 1 does at a pixel inside the window (R161, R163): a pixel that was 1 sets VF; the
pixel is inverted; REDRAW is set (R164). -/
def touchPixel (s : State) (row col : Nat) : State :=
  let s1 := if pixel s.fb row col then s.setReg vf 1 else s
  (s1.setFb (flipPixel s1.fb row col)).setRedraw true

/-- Sprite bit `c` of a row byte, most significant first: `b[7 - c]` (R161). -/
def spriteBit (b : Byte) (c : Nat) : Bool := b.getLsbD (7 - c)

/-- The columns of one sprite row (R161): the last `count` of the eight, so column c = 8 - count first; the
row stops at the right edge (R162). -/
def drawCols (b : Byte) (row x0 : Nat) (count : Nat) (s : State) : State :=
  match count with
  | 0 => s
  | k + 1 =>
    let c := 7 - k
    let col := x0 + c
    if Config.screenW ≤ col then s
    else drawCols b row x0 k (if spriteBit b c then touchPixel s row col else s)

/-- The rows of a sprite (R161): `count` rows from row `r` of the sprite on; drawing stops at the bottom
edge (R162). -/
def drawRows (x0 y0 : Nat) (r count : Nat) (s : State) : State :=
  match count with
  | 0 => s
  | k + 1 =>
    let row := y0 + r
    if Config.screenH ≤ row then s
    else drawRows x0 y0 (r + 1) k (drawCols (s.readMem (effAddr s r)) row x0 8 s)

/-- Dxyn (R161): the origin is read before VF is cleared (R162), and the whole range `I` to `I + n - 1` is
checked before any write (R165). -/
def execDrw (x y : Reg) (n : Nibble) (s : State) : Result :=
  let x0 := originCol s x
  let y0 := originRow s y
  checked (effAddr s 0) n.toNat s (.next (drawRows x0 y0 0 n.toNat (s.setReg vf 0)))

end Sys2Proof.Machine
end

