-- ==== Sys2Proof/Machine/Index.lean ====
section
/-!
DEFINITION. The index register and memory transfers (42_index_memory.md R140 to R146).  A range is checked
whole before the first write (20_memory.md R56), and I is never changed by an access (R146).
-/
namespace Sys2Proof.Machine

/-- Annn (R140). -/
def execLdI (nnn : Addr12) (s : State) : Result := .next (s.setI (addrWord nnn))

/-- Fx1E under either value of FX1E_CLEAR_VF (R141): I masked to 12 bits, then VF. -/
def addIndex (clearVf : Bool) (x : Reg) (s : State) : State :=
  let t := s.i.toNat + (s.reg x).toNat
  let s1 := s.setI (BitVec.ofNat 16 (t &&& 0x0FFF))
  if indexOverflow s.i (s.reg x) then s1.setReg vf 1
  else if clearVf then s1.setReg vf 0
  else s1

/-- Fx1E (R141).  It never raises a fault (conflict C6). -/
def execAddI (x : Reg) (s : State) : Result := .next (addIndex fx1eClearVf x s)

/-- Fx29 (R142). -/
def execLdF (x : Reg) (s : State) : Result := .next (s.setI (glyphAddr (s.reg x)))

/-- Fx33 (R143): the digits of V[x] at I, I + 1, I + 2. -/
def execLdB (x : Reg) (s : State) : Result :=
  checked (effAddr s 0) 3 s (.next (s.writeMemBytes (effAddr s 0) (bcdDigits (s.reg x))))

/-- Fx55 (R144): V0 to Vx from I up; x is the number in the instruction. -/
def execStoreRegs (x : Reg) (s : State) : Result :=
  checked (effAddr s 0) (x.val + 1) s (.next (s.writeMemBytes (effAddr s 0) (regsUpTo s x)))

/-- `for i from 0 to x: V[i] <- MemRead(I + i, 1)` (R145), for the first `count` registers. -/
def loadRegsFrom (s : State) (count : Nat) : State :=
  match count with
  | 0 => s
  | k + 1 =>
    let s1 := loadRegsFrom s k
    if h : k < 16 then s1.setReg ⟨k, h⟩ (s1.readMem (effAddr s1 k)) else s1

/-- Fx65 (R145): V0 to Vx from the bytes at I up. -/
def execLoadRegs (x : Reg) (s : State) : Result :=
  checked (effAddr s 0) (x.val + 1) s (.next (loadRegsFrom s (x.val + 1)))

end Sys2Proof.Machine
end

