-- ==== Sys2Proof/Machine/KeyTimer.lean ====
section
/-!
DEFINITION. Keypad and timer instructions (44_keypad_timers.md R175 to R180, R182).
-/
namespace Sys2Proof.Machine

/-- The key Ex9E and ExA1 name: the low four bits of V[x] (R182, decision D9; log entry 15). -/
def namedKey (s : State) (x : Reg) : Reg := lowNibble (s.reg x)

/-- Ex9E (R175). -/
def execSkp (x : Reg) (s : State) : Result := skipIf (keyDown s (namedKey s x)) s

/-- ExA1 (R176). -/
def execSknp (x : Reg) (s : State) : Result := skipIf (!keyDown s (namedKey s x)) s

/-- Fx07 (R178). -/
def execLdVxDt (x : Reg) (s : State) : Result := .next (s.setReg x s.dt)

/-- A key index as the byte a register takes: 0 to 15 (R177). -/
def keyByte (k : Reg) : Byte := BitVec.ofNat 8 k.val

/-- Fx0A (R177): with no key held pc goes back to the instruction, else V[x] takes the pressed key. -/
def execLdVxK (x : Reg) (s : State) : Result :=
  match pressedKey s with
  | none => .next (s.setPc (s.pc - 2))
  | some k => .next (s.setReg x (keyByte k))

/-- Fx15 (R179). -/
def execLdDtVx (x : Reg) (s : State) : Result := .next (s.setDt (s.reg x))

/-- Fx18 (R180). -/
def execLdStVx (x : Reg) (s : State) : Result := .next (s.setSt (s.reg x))

end Sys2Proof.Machine
end

