-- ==== Sys2Proof/Machine/Cycle.lean ====
section
/-!
DEFINITION. One `Step` event: one CPU cycle (30_encoding.md R80), that is fetch (R81), decode (R85) and
execute, and the halted core (60_exceptions.md R208).
-/
namespace Sys2Proof.Machine

/-- The cycle of a core that is not halted (R80, R81): the fetch check, then the opcode at pc, then pc + 2,
then the one instruction it decodes to. -/
def runCycle (s : State) : Result :=
  checked s.pc.toNat 2 s (exec (decode (opcodeAt s)) s.advance)

/-- One CPU cycle (R80).  While FAULT is not None it does nothing at all (R208). -/
def cycle (s : State) : Result :=
  match s.fault with
  | some _ => .next s
  | none => runCycle s

end Sys2Proof.Machine
end

