-- ==== Sys2Proof/Machine/Events.lean ====
section
/-!
DEFINITION. The atomic events (00_scope.md R12, 60_exceptions.md R214, R215): those that come while a program
runs, the host's `Reset` (70_reset_and_hazards.md R240) and `LoadRom` (R243, R244), and which histories of
them are legal (R215).
-/
namespace Sys2Proof.Machine

/-- One timer's decrement with a floor of 0 (R181). -/
def tickDown (b : Byte) : Byte := if b = 0 then 0 else b - 1

/-- `Tick` (R181): each timer on its own.  It acts on a halted core too (R184, R208). -/
def tick (s : State) : State := (s.setDt (tickDown s.dt)).setSt (tickDown s.st)

/-- `AckRedraw` (R219): REDRAW <- 0. -/
def ackRedraw (s : State) : State := s.setRedraw false

/-- An event that may come while a program runs (R214, R216). -/
def runEvent (e : RunEvent) (s : State) : Result :=
  match e with
  | .step => cycle s
  | .tick => .next (tick s)
  | .ackRedraw => .next (ackRedraw s)
  | .keys k => .next (s.setKeys k)

/-- `Reset` from any state (R240).  KEYS, RAND and what the environment has lined up are not state of the
core (R35) and stay (log entry 24). -/
def resetEvent (s : State) : State :=
  { State.reset with keys := s.keys, draws := s.draws, sched := s.sched }

/-- What `LoadRom` answers its caller (R205, R243). -/
inductive LoadResult where
  /-- The image was copied. -/
  | loaded (s : State)
  /-- "ROM exceeds available space after the 0x200 load offset": nothing was written (R244). -/
  | romTooLarge
  deriving DecidableEq, Repr

/-- `LoadRom(bytes)` (R243): the bytes at 0x200 up, or RomTooLarge. -/
def loadRom (bytes : List Byte) (s : State) : LoadResult :=
  if Config.memSize < Config.romBase + bytes.length then .romTooLarge
  else .loaded (s.writeMemBytes Config.romBase bytes)

/-- Every event of R214, and the change of an input of R12. -/
inductive Event where
  | reset
  | loadRom (bytes : List Byte)
  | run (e : RunEvent)
  deriving DecidableEq, Repr

/-- What an event does to the state; a load that fails changes nothing (R244). -/
def perform (e : Event) (s : State) : Result :=
  match e with
  | .reset => .next (resetEvent s)
  | .loadRom bytes =>
    match loadRom bytes s with
    | .loaded t => .next t
    | .romTooLarge => .next s
  | .run r => runEvent r s

/-- Events one after the other (R12). -/
def performAll (es : List Event) (s : State) : Result :=
  match es with
  | [] => .next s
  | e :: rest =>
    match perform e s with
    | .next t => performAll rest t
    | .fault f => .fault f
    | .refused r => .refused r

/-- Where a history stands between its events (R215). -/
inductive Phase where
  /-- Before the first `Reset`. -/
  | unborn
  /-- After `Reset`, before a successful `LoadRom` and before the first run-time event. -/
  | fresh
  /-- After the one successful `LoadRom`, before the first run-time event. -/
  | loaded
  /-- Once a run-time event has come. -/
  | running
  deriving DecidableEq, Repr

/-- The phase after an event, or `none` where the event is not legal there (R215): `Reset`, then at most
one successful `LoadRom` and any number of failed ones, then `Step`, `Tick`, `AckRedraw` in any order.
KEYS may change between any two events (R216).  DESIGN CHOICE (log entry 26): R215 does not place the failed
loads and 90_conflicts.md C12 names those before the successful one; a failed load after it, before the first
run-time event, is legal here too, and changes nothing (R244). -/
def Phase.after (p : Phase) (e : Event) : Option Phase :=
  match e, p with
  | .reset, _ => some .fresh
  | .run (.keys _), q => some q
  | .run _, .unborn => none
  | .run _, _ => some .running
  | .loadRom bytes, .fresh => some (if Config.memSize < Config.romBase + bytes.length then .fresh else .loaded)
  | .loadRom bytes, .loaded => if Config.memSize < Config.romBase + bytes.length then some .loaded else none
  | .loadRom _, _ => none

/-- A history of events is legal from a phase on (R215). -/
def legalFrom (p : Phase) (es : List Event) : Bool :=
  match es with
  | [] => true
  | e :: rest =>
    match p.after e with
    | none => false
    | some q => legalFrom q rest

/-- A legal history (R215). -/
def legalHistory (es : List Event) : Bool := legalFrom .unborn es

end Sys2Proof.Machine
end

