-- ==== Sys2Proof/Machine/Step.lean ====
section
/-!
DEFINITION. One step of the machine: the next atomic event (00_scope.md R12).  With nothing on the schedule
that is one CPU cycle (30_encoding.md R80).
-/
namespace Sys2Proof.Machine

/-- One atomic event: the next one on the schedule, or `Step` where it is empty (R12, R214). -/
def step (s : State) : Host.Outcome State Fault Refusal := runEvent s.nextEvent s.dropEvent

/-- The host's placement of an instruction word where the very next step fetches it: high byte at pc, low
byte at pc + 1 (R52).  So that the next step is a cycle that fetches there, FAULT is cleared, a pc that cannot
be fetched from goes to 0x200, and a `Step` is put in front of any other event (log entries 18, 19). -/
def State.withFetchWord (s : State) (nbits w : Nat) : State :=
  let word := BitVec.ofNat 16 (w % 2 ^ nbits)
  let s1 := s.setFault none
  let s2 := if inRange s1.pc.toNat 2 then s1 else s1.setPc 0x0200
  let s3 := if s2.nextEvent = .step then s2 else s2.setSched (.step :: s2.sched)
  s3.writeMemBytes s3.pc.toNat [highByte word, lowByte word]

end Sys2Proof.Machine
end

