-- ==== Sys2Proof/Safety.lean ====
section
/-!
DEFINITION. The terms claims are stated in: what stays unchanged (frames), the invariant of the machine
(10_state.md R23, R25; 20_memory.md R50), a safe run (60_exceptions.md R208), which registers an instruction
may write (R20, R21), and the pixels a draw touches (43_display.md R162 to R164).
-/
namespace Sys2Proof.Safety
open Sys2Proof.Machine

/-- Every byte of memory reads as before. -/
def SameMemory (s t : State) : Prop := ∀ a, t.readMem a = s.readMem a

/-- Every general register outside the list reads as before. -/
def SameRegsBut (rs : List Reg) (s t : State) : Prop := ∀ r, r ∉ rs → t.reg r = s.reg r

/-- Only the general registers of the list may differ. -/
def OnlyRegs (rs : List Reg) (s t : State) : Prop :=
  SameRegsBut rs s t ∧ SameMemory s t ∧ t = { s with v := t.v }

/-- Only pc may differ. -/
def OnlyPc (s t : State) : Prop := SameMemory s t ∧ t = { s with pc := t.pc }

/-- Only I may differ. -/
def OnlyIndex (s t : State) : Prop := SameMemory s t ∧ t = { s with i := t.i }

/-- Only the `len` bytes of memory from address `a` up may differ. -/
def OnlyBytes (a len : Nat) (s t : State) : Prop :=
  (∀ c, c < a ∨ a + len ≤ c → t.readMem c = s.readMem c) ∧ t = { s with mem := t.mem }

/-- The machine has gone wrong when FAULT is not None (R208): a run is safe while it is None. -/
def Running (s : State) : Prop := s.fault = none

/-- The two bytes at pc exist: a fetch is possible (R81). -/
def Fetchable (s : State) : Prop := s.pc.toNat + 1 ≤ 0xFFF

/-- What every event keeps (R23, R25, R27, R50): pc at most 0x10FE, I at most 0x0FFF, every live stack entry
at most 0x1000, and memory in its canonical form. -/
structure MachineInv (s : State) : Prop where
  pcBound : s.pc.toNat ≤ 0x10FE
  indexBound : s.i.toNat ≤ 0x0FFF
  liveEntries : ∀ k : Fin 16, k.val < s.sp.val → s.stack[k].toNat ≤ 0x1000
  memWf : Memory.wf s.mem

/-- The general registers an instruction may write (R20, R21). -/
def destinations (i : Instr) : List Reg :=
  match i with
  | .cls => []
  | .ret => []
  | .jp _ => []
  | .call _ => []
  | .seImm _ _ => []
  | .sneImm _ _ => []
  | .seReg _ _ => []
  | .ldImm x _ => [x]
  | .addImm x _ => [x]
  | .ldReg x _ => [x]
  | .orReg x _ => [x]
  | .andReg x _ => [x]
  | .xorReg x _ => [x]
  | .addReg x _ => [x, vf]
  | .subReg x _ => [x, vf]
  | .shr x _ => [x, vf]
  | .subnReg x _ => [x, vf]
  | .shl x _ => [x, vf]
  | .sneReg _ _ => []
  | .ldI _ => []
  | .jpV0 _ => []
  | .rnd x _ => [x]
  | .drw _ _ _ => [vf]
  | .skp _ => []
  | .sknp _ => []
  | .ldVxDt x => [x]
  | .ldVxK x => [x]
  | .ldDtVx _ => []
  | .ldStVx _ => []
  | .addI _ => [vf]
  | .ldF _ => []
  | .ldB _ => []
  | .storeRegs _ => []
  | .loadRegs x => (List.finRange 16).filter fun r => r.val ≤ x.val
  | .unimpl _ => []

/-- The instruction forms an address range that leaves memory (R203). -/
def OutOfRange (i : Instr) (s : State) : Prop :=
  (∃ x y n, i = .drw x y n ∧ 1 ≤ n.toNat ∧ 0xFFF < s.i.toNat + n.toNat - 1) ∨
  (∃ x, i = .ldB x ∧ 0xFFF < s.i.toNat + 2) ∨
  (∃ x, i = .storeRegs x ∧ 0xFFF < s.i.toNat + x.val) ∨
  (∃ x, i = .loadRegs x ∧ 0xFFF < s.i.toNat + x.val)

/-- A sprite bit 1 of Dxyn lies on pixel (row, col) inside the clipping window (R162): the sprite's rows are
the `n` bytes from I up, its origin is `V[x] mod 64`, `V[y] mod 32`, and bit 7 of a byte is leftmost. -/
def SpriteOn (s : State) (x y : Reg) (n : Nibble) (row col : Nat) : Prop :=
  let x0 := (s.reg x).toNat % 64
  let y0 := (s.reg y).toNat % 32
  y0 ≤ row ∧ row < y0 + n.toNat ∧ row < 32 ∧ x0 ≤ col ∧ col < x0 + 8 ∧ col < 64 ∧
  (s.readMem (effAddr s (row - y0))).getLsbD (7 - (col - x0)) = true

/-- A flag as the byte VF holds (R21). -/
def flagOf (c : Prop) [Decidable c] : Byte := if c then 1 else 0

end Sys2Proof.Safety
end

