-- ==== Sys2Proof/Certificates/Slice0/Obligations.lean ====
section
/-!
DEFINITION. The statements for the provers.  Each docstring says which rule of spec/ it formalises; a
statement whose docstring names a decision D<n> or a log entry rests on a choice the spec marks as its own.
-/
open Sys2Proof Sys2Proof.Machine Sys2Proof.Safety

/-! ### Encoding -/

/-- R82: the six fields are bit-mask extractions, as the table of the rule writes mask and shift; and the
first byte in memory is `f ++ x`, the second `y ++ n`, which is also `nn`. -/
def Obligations.FieldsAreMaskedBits : Prop :=
  ∀ op : Opcode,
    (fieldF op).toNat = ((op &&& 0xF000) >>> 12).toNat ∧
    (fieldX op).val = ((op &&& 0x0F00) >>> 8).toNat ∧
    (fieldY op).val = ((op &&& 0x00F0) >>> 4).toNat ∧
    (fieldN op).toNat = (op &&& 0x000F).toNat ∧
    (fieldNN op).toNat = (op &&& 0x00FF).toNat ∧
    (fieldNNN op).toNat = (op &&& 0x0FFF).toNat ∧
    highByte op = fieldF op ++ regBits (fieldX op) ∧
    lowByte op = regBits (fieldY op) ++ fieldN op ∧
    lowByte op = fieldNN op

/-- R88, R84: words of every family, 0 to F, decode to the instruction they stand for (the words of the decode
and instruction vectors of 95_test_vectors.md). -/
def Obligations.SampleWordsDecode : Prop :=
  decode 0x00E0 = .cls ∧ decode 0x00EE = .ret ∧ decode 0x1204 = .jp 0x204 ∧
  decode 0x2FFF = .call 0xFFF ∧ decode 0x3F01 = .seImm 0xF 0x01 ∧ decode 0x4311 = .sneImm 3 0x11 ∧
  decode 0x5AB0 = .seReg 0xA 0xB ∧ decode 0x6A55 = .ldImm 0xA 0x55 ∧ decode 0x70FF = .addImm 0 0xFF ∧
  decode 0x8AB4 = .addReg 0xA 0xB ∧ decode 0x812E = .shl 1 2 ∧ decode 0x9120 = .sneReg 1 2 ∧
  decode 0xA300 = .ldI 0x300 ∧ decode 0xB300 = .jpV0 0x300 ∧
  decode 0xC30F = .rnd 3 0x0F ∧ decode 0xD125 = .drw 1 2 5 ∧ decode 0xE09E = .skp 0 ∧
  decode 0xF933 = .ldB 9 ∧ decode 0x5AB1 = .unimpl 0x5AB1 ∧ decode 0x0000 = .unimpl 0x0000

/-- R94: every word is either exactly one row of the opcode map or an unimplemented opcode. -/
def Obligations.EveryWordIsOneRowOrUnimplemented : Prop :=
  ∀ op : Opcode,
    (opcodeRows.countP (·.accepts op) = 1 ∧ (∀ w, decode op ≠ .unimpl w)) ∨
    (opcodeRows.countP (·.accepts op) = 0 ∧ decode op = .unimpl op)

/-- Decode and encode agree: for every well-formed instruction, with every operand at every value the
encoding admits, decoding its word gives it back (R83, R88). -/
def Obligations.DecodeInvertsEncode : Prop :=
  ∀ i : Instr, i.wf = true → decode (encode i) = i

/-- Decoding loses no bit: every word is the encoding of the instruction it decodes to, which is well
formed (R88, R94). -/
def Obligations.EncodeInvertsDecode : Prop :=
  ∀ op : Opcode, encode (decode op) = op ∧ (decode op).wf = true

/-! ### The cycle -/

/-- R80, R52 (log entry 9: the schedule): when the two bytes at pc decode to an instruction and the next event is a cycle, a step is that
instruction run with pc already two further on (and the event taken off the schedule). -/
def Obligations.StepRunsDecodedInstruction : Prop :=
  ∀ (s : State) (i : Instr), Running s → s.nextEvent = .step → Fetchable s →
    decodeBytes [s.readMem s.pc.toNat, s.readMem (s.pc.toNat + 1)] = .ok (i, []) →
    step s = exec i { s with pc := s.pc + 2, sched := s.sched.tail }

/-- R81: fetch combines the bytes at pc and pc + 1, high byte first, and pc becomes pc + 2 before execute;
where pc + 1 lies beyond 0xFFF the cycle raises MemoryOutOfRange and changes nothing else, pc included. -/
def Obligations.FetchChecksThenAdvances : Prop :=
  ∀ s : State, Running s → s.nextEvent = .step →
    (0xFFF < s.pc.toNat + 1 →
      step s = .next { s with fault := some .memoryOutOfRange, sched := s.sched.tail }) ∧
    (s.pc.toNat + 1 ≤ 0xFFF → ∃ op : Opcode,
      op.toNat = (s.readMem s.pc.toNat).toNat * 256 + (s.readMem (s.pc.toNat + 1)).toNat ∧
      step s = exec (decode op) { s with pc := s.pc + 2, sched := s.sched.tail })

/-- R208 (decision D12): while FAULT is not None a cycle does nothing at all. -/
def Obligations.HaltedCycleDoesNothing : Prop :=
  ∀ (s : State) (f : Fault), s.fault = some f → s.nextEvent = .step →
    step s = .next { s with sched := s.sched.tail }

/-- R208, R209, R184 (decision D12): once FAULT holds a value, no run-time events of any number and order
change anything but the timers, REDRAW and the KEYS input; in particular FAULT stays. -/
def Obligations.HaltedStateIsSticky : Prop :=
  ∀ (es : List RunEvent) (s : State) (f : Fault), s.fault = some f →
    ∃ t, performAll (es.map .run) s = .next t ∧
      t = { s with dt := t.dt, st := t.st, redraw := t.redraw, keys := t.keys }

/-- R200, R204, R90 (log entry 13: a fatal condition and a halted cycle are next states): from every state a
step answers a next state: no word, no data and no address stops the
model (a fatal condition is a next state with FAULT set, R207). -/
def Obligations.EveryStepAnswersNext : Prop := ∀ s : State, ∃ t, step s = .next t

/-! ### Control flow -/

/-- R101: 1nnn sets pc to nnn and changes nothing else; a jump to its own address changes no state; nnn = 0xFFF
is accepted and the next fetch raises MemoryOutOfRange. -/
def Obligations.JumpSetsPc : Prop :=
  (∀ (nnn : Addr12) (s : State), ∃ t, exec (.jp nnn) s = .next t ∧ t.pc.toNat = nnn.toNat ∧ OnlyPc s t) ∧
  (∀ (nnn : Addr12) (s : State), Running s → s.sched = [] → Fetchable s →
    decode (opcodeAt s) = .jp nnn → nnn.toNat = s.pc.toNat → step s = .next s) ∧
  (∀ s t : State, Running s → s.sched = [] → exec (.jp 0xFFF) s = .next t →
    step t = .next { t with fault := some .memoryOutOfRange })

/-- R108 (decision D16): Bnnn sets pc to the unmasked sum of nnn and V0, whatever the x field. -/
def Obligations.JumpWithOffsetSetsPc : Prop :=
  ∀ (nnn : Addr12) (s : State), ∃ t, exec (.jpV0 nnn) s = .next t ∧
    t.pc.toNat = nnn.toNat + (s.reg 0).toNat ∧ OnlyPc s t

/-- R104 to R107: 3xnn, 4xnn, 5xy0 and 9xy0 add 2 to pc exactly when their comparison holds, and change
nothing else. -/
def Obligations.CompareSkips : Prop :=
  ∀ (x y : Reg) (nn : Byte) (s : State),
    exec (.seImm x nn) s = .next { s with pc := if s.reg x = nn then s.pc + 2 else s.pc } ∧
    exec (.sneImm x nn) s = .next { s with pc := if s.reg x ≠ nn then s.pc + 2 else s.pc } ∧
    exec (.seReg x y) s = .next { s with pc := if s.reg x = s.reg y then s.pc + 2 else s.pc } ∧
    exec (.sneReg x y) s = .next { s with pc := if s.reg x ≠ s.reg y then s.pc + 2 else s.pc }

/-- R175, R176, R182 (decision D9: the key is the low four bits of V[x]): Ex9E adds 2 to pc exactly when the
named key is held, ExA1 exactly when it is not; nothing else changes. -/
def Obligations.KeySkips : Prop :=
  ∀ (x : Reg) (s : State),
    exec (.skp x) s =
      .next { s with pc := if s.keys.getLsbD ((s.reg x).toNat % 16) = true then s.pc + 2 else s.pc } ∧
    exec (.sknp x) s =
      .next { s with pc := if s.keys.getLsbD ((s.reg x).toNat % 16) = true then s.pc else s.pc + 2 }

/-- R102: 2nnn pushes pc on a stack that is not full and jumps; on a full stack it raises StackOverflow and
changes nothing else. -/
def Obligations.CallPushesAndJumps : Prop :=
  ∀ (nnn : Addr12) (s : State),
    (s.sp.val < 16 → ∃ t, exec (.call nnn) s = .next t ∧ t.pc.toNat = nnn.toNat ∧
      t.sp.val = s.sp.val + 1 ∧
      (∀ k : Fin 16, t.stack[k] = if k.val = s.sp.val then s.pc else s.stack[k]) ∧
      SameMemory s t ∧ t = { s with pc := t.pc, sp := t.sp, stack := t.stack }) ∧
    (s.sp.val = 16 → exec (.call nnn) s = .next { s with fault := some .stackOverflow })

/-- R100: 00EE pops the top entry into pc; where that is 0x0FFF or more the next cycle's fetch faults; on an
empty stack it raises StackUnderflow and changes nothing else. -/
def Obligations.ReturnPopsIntoPc : Prop :=
  ∀ s : State,
    (∀ k : Fin 16, s.sp.val = k.val + 1 → ∃ t, exec .ret s = .next t ∧ t.pc = s.stack[k] ∧
      t.sp.val = k.val ∧ SameMemory s t ∧ t = { s with pc := t.pc, sp := t.sp } ∧
      (Running s → s.sched = [] → 0x0FFF ≤ (s.stack[k]).toNat →
        step t = .next { t with fault := some .memoryOutOfRange })) ∧
    (s.sp.val = 0 → exec .ret s = .next { s with fault := some .stackUnderflow })

/-- R110: a return executed at the depth a call left, after any run in which the depth never fell back to
the caller's, restores pc to the instruction after the call and the stack pointer of before the call. -/
def Obligations.CallReturnRoundTrip : Prop :=
  ∀ (nnn : Addr12) (s t u : State) (n : Nat), s.sp.val < 16 → exec (.call nnn) s = .next t →
    Host.Core.run Sys2Proof.core n t = .next u →
    (∀ (m : Nat) (x : State), m ≤ n → Host.Core.run Sys2Proof.core m t = .next x → s.sp.val < x.sp.val) →
    u.sp.val = s.sp.val + 1 →
    ∃ w, exec .ret u = .next w ∧ w.pc = s.pc ∧ w.sp = s.sp

/-- R109: a word that matches no row has no effect but fetch's; as an instruction it changes nothing. -/
def Obligations.UnimplementedOnlyAdvances : Prop :=
  (∀ (op : Opcode) (s : State), exec (.unimpl op) s = .next s) ∧
  (∀ s : State, Running s → s.sched = [] → Fetchable s → isInstruction (opcodeAt s) = false →
    step s = .next { s with pc := s.pc + 2 })

/-! ### Registers and arithmetic -/

/-- R122 to R127: the register loads, the flagless add modulo 256 and the logic operations write V[x] and no
other register, VF included. -/
def Obligations.FlaglessRegisterResults : Prop :=
  ∀ (x y : Reg) (nn : Byte) (s : State),
    (∃ t, exec (.ldImm x nn) s = .next t ∧ t.reg x = nn ∧ OnlyRegs [x] s t) ∧
    (∃ t, exec (.addImm x nn) s = .next t ∧
      (t.reg x).toNat = ((s.reg x).toNat + nn.toNat) % 256 ∧ OnlyRegs [x] s t) ∧
    (∃ t, exec (.ldReg x y) s = .next t ∧ t.reg x = s.reg y ∧ OnlyRegs [x] s t) ∧
    (∃ t, exec (.orReg x y) s = .next t ∧ t.reg x = s.reg x ||| s.reg y ∧ OnlyRegs [x] s t) ∧
    (∃ t, exec (.andReg x y) s = .next t ∧ t.reg x = s.reg x &&& s.reg y ∧ OnlyRegs [x] s t) ∧
    (∃ t, exec (.xorReg x y) s = .next t ∧ t.reg x = s.reg x ^^^ s.reg y ∧ OnlyRegs [x] s t)

/-- R128, R121 (decision D6 where x = F): 8xy4 writes the sum modulo 256 and then VF = carry of the original
operands; with x = F the carry is what stays. -/
def Obligations.AddWritesCarryLast : Prop :=
  ∀ (x y : Reg) (s : State), ∃ t, exec (.addReg x y) s = .next t ∧
    t.reg 15 = flagOf (255 < (s.reg x).toNat + (s.reg y).toNat) ∧
    (x ≠ 15 → (t.reg x).toNat = ((s.reg x).toNat + (s.reg y).toNat) % 256) ∧
    OnlyRegs [x, 15] s t

/-- R129, R131, R121 (decision D6): 8xy5 and 8xy7 write VF first, a strict comparison of the original
operands, and then the difference modulo 256 of what the registers hold after that. -/
def Obligations.SubtractWritesFlagFirst : Prop :=
  ∀ (x y : Reg) (s : State),
    (∃ t f : _, f = flagOf ((s.reg y).toNat < (s.reg x).toNat) ∧ exec (.subReg x y) s = .next t ∧
      (t.reg x).toNat = ((if x = 15 then f else s.reg x).toNat + 256 -
        (if y = 15 then f else s.reg y).toNat) % 256 ∧
      (x ≠ 15 → t.reg 15 = f) ∧ OnlyRegs [x, 15] s t) ∧
    (∃ t f : _, f = flagOf ((s.reg x).toNat < (s.reg y).toNat) ∧ exec (.subnReg x y) s = .next t ∧
      (t.reg x).toNat = ((if y = 15 then f else s.reg y).toNat + 256 -
        (if x = 15 then f else s.reg x).toNat) % 256 ∧
      (x ≠ 15 → t.reg 15 = f) ∧ OnlyRegs [x, 15] s t)

/-- R130, R132, R121 (decisions D6, D20): for each value of SHIFT_USES_VY, 8xy6 and 8xyE write the bit shifted
out to VF and then shift what V[x] holds by one; the instructions are those with the parameter false. -/
def Obligations.ShiftsWriteFlagFirst : Prop :=
  ∀ (x y : Reg) (s : State),
    exec (.shr x y) s = shiftRight false x y s ∧ exec (.shl x y) s = shiftLeft false x y s ∧
    ∀ (usesVy : Bool) (a : Byte), a = (if usesVy then s.reg y else s.reg x) →
      (∃ t f : _, f = flagOf (a.toNat % 2 = 1) ∧ shiftRight usesVy x y s = .next t ∧
        (t.reg x).toNat = (if x = 15 then f else a).toNat / 2 ∧
        (x ≠ 15 → t.reg 15 = f) ∧ OnlyRegs [x, 15] s t) ∧
      (∃ t f : _, f = flagOf (128 ≤ a.toNat) ∧ shiftLeft usesVy x y s = .next t ∧
        (t.reg x).toNat = (if x = 15 then f else a).toNat * 2 % 256 ∧
        (x ≠ 15 → t.reg 15 = f) ∧ OnlyRegs [x, 15] s t)

/-- R133, R218 (decision D11): Cxnn writes nn AND a fresh byte, whatever that byte is, so every bit that is 0
in nn is 0 in the result; the draw is counted and nothing else changes.  Log entry 7: the byte is a free value. -/
def Obligations.RandomIsMasked : Prop :=
  ∀ (x : Reg) (nn : Byte) (s : State),
    (∃ t r : _, r = Config.randByte s.draws ∧ exec (.rnd x nn) s = .next t ∧ t.reg x = nn &&& r ∧
      t.draws = s.draws + 1 ∧ SameRegsBut [x] s t ∧ SameMemory s t ∧
      t = { s with v := t.v, draws := t.draws }) ∧
    (∀ t, exec (.rnd x nn) s = .next t → ∀ k, nn.getLsbD k = false → (t.reg x).getLsbD k = false)

/-- R123, R134 (the source's first testable property): two flagless adds in a row accumulate modulo 256. -/
def Obligations.AddImmediatesAccumulate : Prop :=
  ∀ (x : Reg) (a b : Byte) (s : State), ∃ t u, exec (.addImm x a) s = .next t ∧
    exec (.addImm x b) t = .next u ∧
    (u.reg x).toNat = ((s.reg x).toNat + a.toNat + b.toNat) % 256 ∧ OnlyRegs [x] s u

/-- R20, R21 (decision D24 for the logic operations): an instruction changes no general register but its
destinations; so VF changes only under the
instructions that write it as a flag and under those whose destination it is. -/
def Obligations.OnlyDestinationsChange : Prop :=
  ∀ (i : Instr) (s t : State) (r : Reg), exec i s = .next t → r ∉ destinations i → t.reg r = s.reg r

/-! ### Index register and memory -/

/-- R140, R142: Annn and Fx29 set I and change nothing else. -/
def Obligations.IndexLoads : Prop :=
  ∀ (nnn : Addr12) (x : Reg) (s : State),
    (∃ t, exec (.ldI nnn) s = .next t ∧ t.i.toNat = nnn.toNat ∧ OnlyIndex s t) ∧
    (∃ t, exec (.ldF x) s = .next t ∧ t.i.toNat = 0x050 + 5 * ((s.reg x).toNat % 16) ∧ OnlyIndex s t)

/-- R141 (decision D7): for each value of FX1E_CLEAR_VF, Fx1E sets I to the sum modulo 4096 and VF to 1 on
overflow past 0xFFF, else to 0 or not at all; the instruction is the one with the parameter false. -/
def Obligations.AddToIndexSetsOverflow : Prop :=
  ∀ (x : Reg) (s : State),
    (∃ t, exec (.addI x) s = .next t ∧ t = addIndex false x s) ∧
    ∀ clearVf : Bool, ∃ t, t = addIndex clearVf x s ∧
      t.i.toNat = (s.i.toNat + (s.reg x).toNat) % 4096 ∧
      t.reg 15 = (if 0x0FFF < s.i.toNat + (s.reg x).toNat then 1 else if clearVf then 0 else s.reg 15) ∧
      SameRegsBut [15] s t ∧ SameMemory s t ∧ t = { s with v := t.v, i := t.i }

/-- R143: Fx33 stores the hundreds, tens and ones of V[x] at I, I + 1, I + 2 and changes nothing else; where
I + 2 lies beyond 0xFFF it raises MemoryOutOfRange before any byte is written. -/
def Obligations.BcdStoresDigits : Prop :=
  ∀ (x : Reg) (s : State), Memory.wf s.mem →
    (s.i.toNat + 2 ≤ 0xFFF → ∃ t, exec (.ldB x) s = .next t ∧
      (t.readMem (effAddr s 0)).toNat = (s.reg x).toNat / 100 ∧
      (t.readMem (effAddr s 1)).toNat = (s.reg x).toNat / 10 % 10 ∧
      (t.readMem (effAddr s 2)).toNat = (s.reg x).toNat % 10 ∧ OnlyBytes (effAddr s 0) 3 s t) ∧
    (0xFFF < s.i.toNat + 2 → exec (.ldB x) s = .next { s with fault := some .memoryOutOfRange })

/-- R144 (decisions D13, D15): Fx55 stores V0 to Vx at I to I + x and changes nothing else, I included; where
I + x lies beyond 0xFFF it raises MemoryOutOfRange before any byte is written. -/
def Obligations.StoreRegistersWritesRange : Prop :=
  ∀ (x : Reg) (s : State), Memory.wf s.mem →
    (s.i.toNat + x.val ≤ 0xFFF → ∃ t, exec (.storeRegs x) s = .next t ∧
      (∀ k : Reg, k.val ≤ x.val → t.readMem (effAddr s k.val) = s.reg k) ∧
      OnlyBytes (effAddr s 0) (x.val + 1) s t) ∧
    (0xFFF < s.i.toNat + x.val → exec (.storeRegs x) s = .next { s with fault := some .memoryOutOfRange })

/-- R145 (decision D15): Fx65 loads V0 to Vx from I to I + x and changes nothing else, I included; where I + x
lies beyond 0xFFF it raises MemoryOutOfRange before any register is written. -/
def Obligations.LoadRegistersReadsRange : Prop :=
  ∀ (x : Reg) (s : State),
    (s.i.toNat + x.val ≤ 0xFFF → ∃ t, exec (.loadRegs x) s = .next t ∧
      (∀ k : Reg, t.reg k = if k.val ≤ x.val then s.readMem (effAddr s k.val) else s.reg k) ∧
      SameMemory s t ∧ t = { s with v := t.v }) ∧
    (0xFFF < s.i.toNat + x.val → exec (.loadRegs x) s = .next { s with fault := some .memoryOutOfRange })

/-- R144, R145: registers stored by Fx55 come back by Fx65 at the same I, whatever the registers hold by
then. -/
def Obligations.StoreThenLoadRestores : Prop :=
  ∀ (x : Reg) (s t u : State), Memory.wf s.mem → s.i.toNat + x.val ≤ 0xFFF →
    exec (.storeRegs x) s = .next t → SameMemory t u → u.i = s.i →
    ∃ w, exec (.loadRegs x) u = .next w ∧ ∀ k : Reg, k.val ≤ x.val → w.reg k = s.reg k

/-- R64, R253: bytes stored by Fx55 where the next fetch reads are the opcode it reads, first byte high. -/
def Obligations.StoredBytesAreFetched : Prop :=
  ∀ (x a b : Reg) (s t : State), Memory.wf s.mem → s.i.toNat + x.val ≤ 0xFFF →
    b.val = a.val + 1 → b.val ≤ x.val → exec (.storeRegs x) s = .next t →
    t.pc.toNat = effAddr s a.val → opcodeAt t = s.reg a ++ s.reg b

/-! ### Display -/

/-- R160: 00E0 clears every pixel and sets REDRAW, changes nothing else, and a second one changes nothing. -/
def Obligations.ClearScreenClearsAll : Prop :=
  ∀ s : State, ∃ t, exec .cls s = .next t ∧
    (∀ row col, row < Config.screenH → col < Config.screenW → pixel t.fb row col = false) ∧
    t.redraw = true ∧
    SameMemory s t ∧ t = { s with fb := t.fb, redraw := t.redraw } ∧ exec .cls t = .next t

/-- R161 to R165 (decisions D1, D14, D18): Dxyn inverts exactly the pixels that lie under a sprite bit 1 inside
the clipping window; VF is 1 exactly when one of them was on; REDRAW is set exactly when there is one; nothing
else changes.  Where the sprite's bytes reach beyond 0xFFF it raises MemoryOutOfRange and nothing else. -/
def Obligations.DrawXorsClippedSprite : Prop :=
  ∀ (x y : Reg) (n : Nibble) (s : State),
    (s.i.toNat + n.toNat ≤ 0x1000 ∨ n.toNat = 0 → ∃ t, exec (.drw x y n) s = .next t ∧
      (∀ row col, row < 32 → col < 64 →
        (SpriteOn s x y n row col → pixel t.fb row col = !pixel s.fb row col) ∧
        (¬ SpriteOn s x y n row col → pixel t.fb row col = pixel s.fb row col)) ∧
      ((∃ row col, SpriteOn s x y n row col ∧ pixel s.fb row col = true) → t.reg 15 = 1) ∧
      ((¬ ∃ row col, SpriteOn s x y n row col ∧ pixel s.fb row col = true) → t.reg 15 = 0) ∧
      (t.redraw = true ↔ s.redraw = true ∨ ∃ row col, SpriteOn s x y n row col) ∧
      SameRegsBut [15] s t ∧ SameMemory s t ∧ t = { s with v := t.v, fb := t.fb, redraw := t.redraw }) ∧
    (1 ≤ n.toNat → 0xFFF < s.i.toNat + n.toNat - 1 →
      exec (.drw x y n) s = .next { s with fault := some .memoryOutOfRange })

/-- R163: drawing the same sprite twice at the same place (with neither coordinate in VF) restores the pixel
buffer, and the second draw reports a collision exactly when the first turned a pixel on. -/
def Obligations.DrawTwiceRestoresScreen : Prop :=
  ∀ (x y : Reg) (n : Nibble) (s t : State), x ≠ 15 → y ≠ 15 →
    (s.i.toNat + n.toNat ≤ 0x1000 ∨ n.toNat = 0) → exec (.drw x y n) s = .next t →
    ∃ u, exec (.drw x y n) t = .next u ∧ u.fb = s.fb ∧
      (u.reg 15 = 1 ↔ ∃ row col, SpriteOn s x y n row col ∧ pixel s.fb row col = false)

/-! ### Keypad, timers and the other events -/

/-- R178, R179, R180: Fx07 reads DT, Fx15 sets DT, Fx18 sets ST, and nothing else changes. -/
def Obligations.TimerMoves : Prop :=
  ∀ (x : Reg) (s : State),
    (∃ t, exec (.ldVxDt x) s = .next t ∧ t.reg x = s.dt ∧ OnlyRegs [x] s t) ∧
    (∃ t, exec (.ldDtVx x) s = .next t ∧ t.dt = s.reg x ∧ SameMemory s t ∧ t = { s with dt := t.dt }) ∧
    (∃ t, exec (.ldStVx x) s = .next t ∧ t.st = s.reg x ∧ SameMemory s t ∧ t = { s with st := t.st })

/-- R177, R217 (decision D10; log entry 8: which held key is a free value): with a key held Fx0A puts the index
of a held key into V[x]; with none it takes pc back by 2; nothing else changes. -/
def Obligations.KeyWaitTakesHeldKey : Prop :=
  ∀ (x : Reg) (s : State),
    (s.keys = 0 → exec (.ldVxK x) s = .next { s with pc := s.pc - 2 }) ∧
    (s.keys ≠ 0 → ∃ (t : State) (k : Reg), exec (.ldVxK x) s = .next t ∧ s.keys.getLsbD k.val = true ∧
      (t.reg x).toNat = k.val ∧ OnlyRegs [x] s t)

/-- R177, R252: a waiting cycle of Fx0A changes no state at all. -/
def Obligations.KeyWaitSpins : Prop :=
  ∀ (x : Reg) (s : State), Running s → s.sched = [] → Fetchable s →
    decode (opcodeAt s) = .ldVxK x → s.keys = 0 → step s = .next s

/-- R181: after N ticks a timer that held D holds max(0, D - N), each timer on its own, and nothing else has
changed. -/
def Obligations.TicksCountDownToZero : Prop :=
  ∀ (n : Nat) (s : State), ∃ t, performAll (List.replicate n (.run .tick)) s = .next t ∧
    t.dt.toNat = s.dt.toNat - n ∧ t.st.toNat = s.st.toNat - n ∧ SameMemory s t ∧
    t = { s with dt := t.dt, st := t.st }

/-- R214, R216, R219, R181, R208 (decisions D5, D12; log entries 9, 25): with a tick, an acknowledgement or a change of KEYS lined up, a step is that event
alone, whether or not the core is halted. -/
def Obligations.ScheduledEventsAct : Prop :=
  ∀ (s : State) (es : List RunEvent),
    (s.sched = .tick :: es → ∃ t, step s = .next t ∧ t.dt.toNat = s.dt.toNat - 1 ∧
      t.st.toNat = s.st.toNat - 1 ∧ t = { s with dt := t.dt, st := t.st, sched := es }) ∧
    (s.sched = .ackRedraw :: es → step s = .next { s with redraw := false, sched := es }) ∧
    (∀ k, s.sched = .keys k :: es → step s = .next { s with keys := k, sched := es })

/-- R255, R28: no step raises DT but a cycle that runs Fx15. -/
def Obligations.DelayTimerOnlyFallsOrIsSet : Prop :=
  ∀ s t : State, step s = .next t → s.dt.toNat < t.dt.toNat →
    s.nextEvent = .step ∧ ∃ x, decode (opcodeAt s) = .ldDtVx x ∧ t.dt = s.reg x

/-! ### Faults -/

/-- R201, R202, R203 (decision D13 for the ranges): each fatal condition is raised by exactly the instructions
and under exactly the conditions the spec gives. -/
def Obligations.FaultsAriseExactlyWhen : Prop :=
  ∀ (i : Instr) (s t : State), Running s → exec i s = .next t →
    (t.fault = some .stackOverflow ↔ (∃ nnn, i = .call nnn) ∧ s.sp.val = 16) ∧
    (t.fault = some .stackUnderflow ↔ i = .ret ∧ s.sp.val = 0) ∧
    (t.fault = some .memoryOutOfRange ↔ OutOfRange i s)

/-- R207, R211 (decision D13): a faulting cycle changes only FAULT and, unless the fetch itself failed, pc,
which keeps the 2 that fetch added. -/
def Obligations.FaultsArePrecise : Prop :=
  ∀ (s t : State) (f : Fault), Running s → s.nextEvent = .step → step s = .next t → t.fault = some f →
    (s.pc.toNat + 1 ≤ 0xFFF → t = { s with pc := s.pc + 2, fault := some f, sched := s.sched.tail }) ∧
    (0xFFF < s.pc.toNat + 1 → t = { s with fault := some f, sched := s.sched.tail })

/-! ### The whole machine -/

/-- The summary table of 10_state.md (decision D15 for I after an access, D24 for VF) with R20 to R22, R24,
R27 to R31, R34, R51: each piece of state is changed by the instructions listed for it and by no other.  No
instruction clears REDRAW or FAULT, or changes KEYS or the schedule.  The pc row is that of the execute part:
fetch adds its 2 before (R22). -/
def Obligations.EveryWriterIsListed : Prop :=
  ∀ (i : Instr) (s t : State), exec i s = .next t →
    (∀ r, t.reg r ≠ s.reg r → r ∈ destinations i) ∧
    (t.pc ≠ s.pc → i = .ret ∨ (∃ nnn, i = .jp nnn ∨ i = .call nnn ∨ i = .jpV0 nnn) ∨
      (∃ x nn, i = .seImm x nn ∨ i = .sneImm x nn) ∨ (∃ x y, i = .seReg x y ∨ i = .sneReg x y) ∨
      ∃ x, i = .skp x ∨ i = .sknp x ∨ i = .ldVxK x) ∧
    (t.i ≠ s.i → (∃ nnn, i = .ldI nnn) ∨ (∃ x, i = .addI x) ∨ ∃ x, i = .ldF x) ∧
    (t.sp ≠ s.sp → (∃ nnn, i = .call nnn) ∨ i = .ret) ∧
    (t.stack ≠ s.stack → ∃ nnn, i = .call nnn) ∧
    (t.dt ≠ s.dt → ∃ x, i = .ldDtVx x) ∧
    (t.st ≠ s.st → ∃ x, i = .ldStVx x) ∧
    (t.fb ≠ s.fb → i = .cls ∨ ∃ x y n, i = .drw x y n) ∧
    (t.redraw ≠ s.redraw → t.redraw = true ∧ (i = .cls ∨ ∃ x y n, i = .drw x y n)) ∧
    ((∃ a, t.readMem a ≠ s.readMem a) → (∃ x, i = .ldB x) ∨ ∃ x, i = .storeRegs x) ∧
    (t.fault ≠ s.fault → t.fault ≠ none ∧ ((∃ nnn, i = .call nnn) ∨ i = .ret ∨ (∃ x y n, i = .drw x y n) ∨
      ∃ x, i = .ldB x ∨ i = .storeRegs x ∨ i = .loadRegs x)) ∧
    (t.draws ≠ s.draws → ∃ x nn, i = .rnd x nn) ∧
    t.keys = s.keys ∧ t.sched = s.sched

/-- The invariant of R23, R25 and R50 holds in the state after reset. -/
def Obligations.ResetMeetsInvariant : Prop := MachineInv State.reset

/-- R23, R25, R50 (decision D16: pc is not masked): every step, from every state that meets the invariant, leaves a state that meets it: pc at
most 0x10FE, I at most 0x0FFF, live return addresses at most 0x1000, memory in its canonical form. -/
def Obligations.StepKeepsInvariant : Prop := ∀ s t : State, MachineInv s → step s = .next t → MachineInv t

/-- R27, R41, R110: no step changes a live stack entry. -/
def Obligations.LiveStackEntriesStay : Prop :=
  ∀ (s t : State) (k : Fin 16), step s = .next t → k.val < s.sp.val → t.stack[k] = s.stack[k]

/-- R41: stack entries at or above sp are dead: two states that differ only there step to states that differ
only there.  So the value log entry 5 gives STACK at reset can never be seen. -/
def Obligations.DeadStackEntriesUnseen : Prop :=
  ∀ (s t : State) (other : Vector Word 16),
    (∀ k : Fin 16, k.val < s.sp.val → other[k] = s.stack[k]) → step s = .next t →
    ∃ other' : Vector Word 16, step { s with stack := other } = .next { t with stack := other' } ∧
      ∀ k : Fin 16, k.val < t.sp.val → other'[k] = t.stack[k]

/-- R36, R251, R183: REDRAW and ST influence nothing: two states that differ only in them step to states that
differ only in them. -/
def Obligations.RedrawAndSoundInfluenceNothing : Prop :=
  ∀ (s t : State) (b : Bool) (c : Byte), step s = .next t →
    ∃ (b' : Bool) (c' : Byte),
      step { s with redraw := b, st := c } = .next { t with redraw := b', st := c' }

/-! ### Reset and loading -/

/-- R240, R40 (decision D4, the spec's own choice; log entry 4): from every state, halted or not, the Reset
event leaves these values; the inputs and the schedule stay (log entry 24). -/
def Obligations.ResetEventLeavesDecidedValues : Prop :=
  ∀ s : State, ∃ t, perform .reset s = .next t ∧
    (∀ r, t.reg r = 0) ∧ t.pc = 0x0200 ∧ t.i = 0 ∧ t.sp.val = 0 ∧ t.dt = 0 ∧ t.st = 0 ∧
    (∀ row col, pixel t.fb row col = false) ∧ t.redraw = false ∧ t.fault = none ∧
    t.keys = s.keys ∧ t.draws = s.draws ∧ t.sched = s.sched

/-- R242: the memory image after Reset is 0x00 at every address but 0x050 to 0x09F, which hold the 80 bytes of
FONT. -/
def Obligations.ResetMemoryImage : Prop :=
  font.length = 80 ∧
  ∀ s : State, ∃ t, perform .reset s = .next t ∧
    (∀ k (h : k < font.length), t.readMem (0x050 + k) = font[k]) ∧
    (∀ a, a < 0x050 ∨ 0x09F < a → t.readMem a = 0)

/-- R243: an image of at most 3584 bytes is copied to 0x200 up and nothing else changes; a longer one is
answered RomTooLarge and writes nothing. -/
def Obligations.LoadRomCopiesOrRefuses : Prop :=
  ∀ (bytes : List Byte) (s : State), Memory.wf s.mem →
    (bytes.length ≤ 3584 → ∃ t, loadRom bytes s = .loaded t ∧ perform (.loadRom bytes) s = .next t ∧
      (∀ k (h : k < bytes.length), t.readMem (0x200 + k) = bytes[k]) ∧
      OnlyBytes 0x200 bytes.length s t) ∧
    (3584 < bytes.length → loadRom bytes s = .romTooLarge ∧ perform (.loadRom bytes) s = .next s)

/-- R215 (decision D26; log entry 26), both halves.  Forbidden: once a run-time event has come, a load until
the next Reset; a second load that fits; a Step, Tick or AckRedraw before the first Reset.  Legal: Reset, then
any failed loads, then one load that fits or none, then any run-time events. -/
def Obligations.NoLoadOnceRunning : Prop :=
  (∀ (es : List Event) (bytes : List Byte), .reset ∉ es →
    legalFrom .running (es ++ [.loadRom bytes]) = false) ∧
  (∀ (a b : List Byte) (es : List Event), a.length ≤ 3584 → b.length ≤ 3584 →
    legalHistory (.reset :: .loadRom a :: .loadRom b :: es) = false) ∧
  (∀ (e : RunEvent) (es : List Event), (∀ k, e ≠ .keys k) → legalHistory (.run e :: es) = false) ∧
  (∀ (tooLong : List (List Byte)) (bytes : List Byte) (es : List RunEvent),
    (∀ b ∈ tooLong, 3584 < b.length) → bytes.length ≤ 3584 →
    legalHistory (.reset :: (tooLong.map .loadRom ++ .loadRom bytes :: es.map .run)) = true ∧
    legalHistory (.reset :: (tooLong.map .loadRom ++ es.map .run)) = true)
end

