-- ==== Sys2Proof/Laws/Memory.lean ====
section
/-!
SUPPORT. The laws of memory: what a read gives after a write, and that every operation keeps the canonical
form (20_memory.md R55, R62).
-/
namespace Sys2Proof.Machine

@[simp] theorem Memory.read_nil (a : Nat) : Memory.read [] a = resetByte a := rfl

/-- The empty memory, which `State.reset` holds, is canonical. -/
theorem Memory.wf_nil : Memory.wf [] := ⟨List.Pairwise.nil, by simp⟩

/-- An address below every listed one reads as the reset image. -/
theorem Memory.read_of_lt {m : Memory} {a : Nat} (h : ∀ c ∈ m, a < c.1) :
    Memory.read m a = resetByte a := by
  induction m with
  | nil => rfl
  | cons c rest ih =>
    obtain ⟨b, w⟩ := c
    have hb : a < b := h (b, w) (by simp)
    have hne : a ≠ b := by omega
    simp only [Memory.read, hne, if_false]
    exact ih fun d hd => h d (List.mem_cons_of_mem _ hd)

theorem Memory.read_cons_same {a : Nat} (w : Byte) {rest : Memory} (h : ∀ c ∈ rest, a < c.1) :
    Memory.read (Memory.cons a w rest) a = w := by
  unfold Memory.cons
  split
  · rw [Memory.read_of_lt h]; simp [*]
  · simp [Memory.read]

theorem Memory.read_cons_ne {a c : Nat} (w : Byte) (rest : Memory) (h : c ≠ a) :
    Memory.read (Memory.cons a w rest) c = Memory.read rest c := by
  unfold Memory.cons
  split
  · rfl
  · simp [Memory.read, h]

/-- A byte put at an address leaves every other address alone. -/
theorem Memory.read_put_ne {m : Memory} {a c : Nat} (w : Byte) (h : c ≠ a) :
    Memory.read (Memory.put m a w) c = Memory.read m c := by
  induction m with
  | nil => simp [Memory.put, Memory.read_cons_ne w [] h]
  | cons d rest ih =>
    obtain ⟨b, u⟩ := d
    unfold Memory.put
    split
    · exact Memory.read_cons_ne w _ h
    · split
      · rename_i hab
        subst hab
        rw [Memory.read_cons_ne w _ h]
        simp [Memory.read, h]
      · simp only [Memory.read, ih]

/-- A byte put at an address is the byte read there. -/
theorem Memory.read_put_same {m : Memory} {a : Nat} (w : Byte)
    (h : m.Pairwise fun c d => c.1 < d.1) : Memory.read (Memory.put m a w) a = w := by
  induction m with
  | nil => exact Memory.read_cons_same w (by simp)
  | cons d rest ih =>
    obtain ⟨b, u⟩ := d
    rw [List.pairwise_cons] at h
    unfold Memory.put
    split
    · rename_i hab
      refine Memory.read_cons_same w fun c hc => ?_
      rcases List.mem_cons.1 hc with rfl | hc
      · exact hab
      · have := h.1 c hc
        simp only at this
        omega
    · split
      · rename_i hab
        subst hab
        exact Memory.read_cons_same w h.1
      · rename_i hne
        simp only [Memory.read, hne, if_false]
        exact ih h.2

theorem Memory.mem_cons {a : Nat} {w : Byte} {rest : Memory} {c : Host.Cell}
    (h : c ∈ Memory.cons a w rest) : (c = (a, w) ∧ w ≠ resetByte a) ∨ c ∈ rest := by
  unfold Memory.cons at h
  split at h
  · exact .inr h
  · rcases List.mem_cons.1 h with h | h
    · exact .inl ⟨h, ‹_›⟩
    · exact .inr h

theorem Memory.wf_cons {a : Nat} {w : Byte} {rest : Memory} (hr : Memory.wf rest)
    (ha : validAddr a = true) (hlt : ∀ c ∈ rest, a < c.1) : Memory.wf (Memory.cons a w rest) := by
  unfold Memory.cons
  split
  · exact hr
  · rename_i hne
    refine ⟨List.pairwise_cons.2 ⟨hlt, hr.1⟩, fun c hc => ?_⟩
    rcases List.mem_cons.1 hc with rfl | hc
    · exact ⟨ha, hne⟩
    · exact hr.2 c hc

/-- Every cell after a put was there before, or is the one put. -/
theorem Memory.mem_put {m : Memory} {a : Nat} {w : Byte} {c : Host.Cell}
    (h : c ∈ Memory.put m a w) : c.1 = a ∨ c ∈ m := by
  induction m with
  | nil =>
    rcases Memory.mem_cons h with ⟨rfl, -⟩ | h
    · exact .inl rfl
    · simp at h
  | cons d rest ih =>
    obtain ⟨b, u⟩ := d
    unfold Memory.put at h
    split at h
    · rcases Memory.mem_cons h with ⟨rfl, -⟩ | h
      · exact .inl rfl
      · exact .inr h
    · split at h
      · rcases Memory.mem_cons h with ⟨rfl, -⟩ | h
        · exact .inl rfl
        · exact .inr (List.mem_cons_of_mem _ h)
      · rcases List.mem_cons.1 h with rfl | h
        · exact .inr (by simp)
        · rcases ih h with h | h
          · exact .inl h
          · exact .inr (List.mem_cons_of_mem _ h)

theorem Memory.wf_tail {c : Host.Cell} {m : Memory} (h : Memory.wf (c :: m)) : Memory.wf m :=
  ⟨(List.pairwise_cons.1 h.1).2, fun d hd => h.2 d (List.mem_cons_of_mem _ hd)⟩

/-- A put keeps the canonical form. -/
theorem Memory.wf_put {m : Memory} {a : Nat} {w : Byte} (h : Memory.wf m)
    (ha : validAddr a = true) : Memory.wf (Memory.put m a w) := by
  induction m with
  | nil => exact Memory.wf_cons Memory.wf_nil ha (by simp)
  | cons d rest ih =>
    obtain ⟨b, u⟩ := d
    have hall := (List.pairwise_cons.1 h.1).1
    have hrest := Memory.wf_tail h
    unfold Memory.put
    split
    · rename_i hab
      refine Memory.wf_cons h ha fun c hc => ?_
      rcases List.mem_cons.1 hc with rfl | hc
      · exact hab
      · have := hall c hc
        simp only at this
        omega
    · split
      · rename_i hab
        subst hab
        exact Memory.wf_cons hrest ha hall
      · rename_i h1 h2
        refine ⟨List.pairwise_cons.2 ⟨fun c hc => ?_, (ih hrest).1⟩, fun c hc => ?_⟩
        · rcases Memory.mem_put hc with hc | hc
          · simp only [hc]; omega
          · exact hall c hc
        · rcases List.mem_cons.1 hc with rfl | hc
          · exact h.2 _ (by simp)
          · exact (ih hrest).2 c hc

/-- A write keeps the canonical form. -/
theorem Memory.wf_write {m : Memory} (a : Nat) (w : Byte) (h : Memory.wf m) :
    Memory.wf (Memory.write m a w) := by
  unfold Memory.write
  split
  · exact Memory.wf_put h ‹_›
  · exact h

/-- Writing bytes in a row keeps the canonical form. -/
theorem Memory.wf_writeBytes {m : Memory} (a : Nat) (bytes : List Byte) (h : Memory.wf m) :
    Memory.wf (Memory.writeBytes m a bytes) := by
  induction bytes generalizing m a with
  | nil => exact h
  | cons w rest ih => exact ih (a + 1) (Memory.wf_write a w h)

theorem Memory.read_write_ne {m : Memory} {a c : Nat} (w : Byte) (h : c ≠ a) :
    Memory.read (Memory.write m a w) c = Memory.read m c := by
  unfold Memory.write
  split
  · exact Memory.read_put_ne w h
  · rfl

theorem Memory.read_write_same {m : Memory} {a : Nat} (w : Byte) (h : Memory.wf m)
    (ha : validAddr a = true) : Memory.read (Memory.write m a w) a = w := by
  simp only [Memory.write, ha, if_true]
  exact Memory.read_put_same w h.1

/-- Bytes written in a row leave every address outside their range alone. -/
theorem Memory.read_writeBytes_outside {m : Memory} {a c : Nat} {bytes : List Byte}
    (h : c < a ∨ a + bytes.length ≤ c) :
    Memory.read (Memory.writeBytes m a bytes) c = Memory.read m c := by
  induction bytes generalizing m a with
  | nil => rfl
  | cons w rest ih =>
    simp only [List.length_cons] at h
    have hne : c ≠ a := by omega
    rw [Memory.writeBytes, ih (by omega), Memory.read_write_ne w hne]

/-- Bytes written in a row at existing addresses are the bytes read there. -/
theorem Memory.read_writeBytes_inside {m : Memory} {a k : Nat} {bytes : List Byte}
    (hm : Memory.wf m) (hv : a + bytes.length ≤ Config.memSize) (hk : k < bytes.length) :
    Memory.read (Memory.writeBytes m a bytes) (a + k) = bytes[k] := by
  induction bytes generalizing m a k with
  | nil => simp at hk
  | cons w rest ih =>
    simp only [List.length_cons] at hv hk
    have ha : validAddr a = true := by simp [validAddr]; omega
    rw [Memory.writeBytes]
    cases k with
    | zero =>
      rw [Memory.read_writeBytes_outside (by omega)]
      simpa using Memory.read_write_same w hm ha
    | succ k =>
      have := ih (a := a + 1) (k := k) (Memory.wf_write a w hm) (by omega) (by omega)
      rw [show a + (k + 1) = a + 1 + k by omega, this]
      rfl

end Sys2Proof.Machine
end

