-- ==== Sys2Proof/Laws/State.lean ====
section
/-!
SUPPORT. One lemma per field per update of the state, each true by unfolding, so that no later proof unfolds
a record update; and the accessors `reg` and `readMem` over every update.
-/
namespace Sys2Proof.Machine
variable (s : State)

/-! ### setReg -/

@[simp] theorem State.setReg_v (x : Reg) (b : Byte) : (s.setReg x b).v = s.v.set x b := rfl
@[simp] theorem State.setReg_pc (x : Reg) (b : Byte) : (s.setReg x b).pc = s.pc := rfl
@[simp] theorem State.setReg_i (x : Reg) (b : Byte) : (s.setReg x b).i = s.i := rfl
@[simp] theorem State.setReg_stack (x : Reg) (b : Byte) : (s.setReg x b).stack = s.stack := rfl
@[simp] theorem State.setReg_sp (x : Reg) (b : Byte) : (s.setReg x b).sp = s.sp := rfl
@[simp] theorem State.setReg_dt (x : Reg) (b : Byte) : (s.setReg x b).dt = s.dt := rfl
@[simp] theorem State.setReg_st (x : Reg) (b : Byte) : (s.setReg x b).st = s.st := rfl
@[simp] theorem State.setReg_fb (x : Reg) (b : Byte) : (s.setReg x b).fb = s.fb := rfl
@[simp] theorem State.setReg_redraw (x : Reg) (b : Byte) : (s.setReg x b).redraw = s.redraw := rfl
@[simp] theorem State.setReg_mem (x : Reg) (b : Byte) : (s.setReg x b).mem = s.mem := rfl
@[simp] theorem State.setReg_fault (x : Reg) (b : Byte) : (s.setReg x b).fault = s.fault := rfl
@[simp] theorem State.setReg_keys (x : Reg) (b : Byte) : (s.setReg x b).keys = s.keys := rfl
@[simp] theorem State.setReg_draws (x : Reg) (b : Byte) : (s.setReg x b).draws = s.draws := rfl
@[simp] theorem State.setReg_sched (x : Reg) (b : Byte) : (s.setReg x b).sched = s.sched := rfl

theorem State.reg_setReg (x : Reg) (b : Byte) (r : Reg) :
    (s.setReg x b).reg r = if r = x then b else s.reg r := by
  unfold State.reg State.setReg
  simp only [Fin.getElem_fin]
  rw [Vector.getElem_set]
  by_cases h : r = x
  · simp [h]
  · have h' : ¬ x.val = r.val := fun e => h (Fin.ext e.symm)
    simp [h, h']

@[simp] theorem State.reg_setReg_same (x : Reg) (b : Byte) : (s.setReg x b).reg x = b := by
  simp [State.reg_setReg]

@[simp] theorem State.reg_setReg_ne {x r : Reg} (b : Byte) (h : r ≠ x) :
    (s.setReg x b).reg r = s.reg r := by
  simp [State.reg_setReg, h]
@[simp] theorem State.setReg_readMem (x : Reg) (b : Byte) (a : Nat) : (s.setReg x b).readMem a = s.readMem a := rfl

/-! ### setPc -/

@[simp] theorem State.setPc_v (w : Word) : (s.setPc w).v = s.v := rfl
@[simp] theorem State.setPc_pc (w : Word) : (s.setPc w).pc = w := rfl
@[simp] theorem State.setPc_i (w : Word) : (s.setPc w).i = s.i := rfl
@[simp] theorem State.setPc_stack (w : Word) : (s.setPc w).stack = s.stack := rfl
@[simp] theorem State.setPc_sp (w : Word) : (s.setPc w).sp = s.sp := rfl
@[simp] theorem State.setPc_dt (w : Word) : (s.setPc w).dt = s.dt := rfl
@[simp] theorem State.setPc_st (w : Word) : (s.setPc w).st = s.st := rfl
@[simp] theorem State.setPc_fb (w : Word) : (s.setPc w).fb = s.fb := rfl
@[simp] theorem State.setPc_redraw (w : Word) : (s.setPc w).redraw = s.redraw := rfl
@[simp] theorem State.setPc_mem (w : Word) : (s.setPc w).mem = s.mem := rfl
@[simp] theorem State.setPc_fault (w : Word) : (s.setPc w).fault = s.fault := rfl
@[simp] theorem State.setPc_keys (w : Word) : (s.setPc w).keys = s.keys := rfl
@[simp] theorem State.setPc_draws (w : Word) : (s.setPc w).draws = s.draws := rfl
@[simp] theorem State.setPc_sched (w : Word) : (s.setPc w).sched = s.sched := rfl
@[simp] theorem State.setPc_reg (w : Word) (r : Reg) : (s.setPc w).reg r = s.reg r := rfl
@[simp] theorem State.setPc_readMem (w : Word) (a : Nat) : (s.setPc w).readMem a = s.readMem a := rfl

/-! ### setI -/

@[simp] theorem State.setI_v (w : Word) : (s.setI w).v = s.v := rfl
@[simp] theorem State.setI_pc (w : Word) : (s.setI w).pc = s.pc := rfl
@[simp] theorem State.setI_i (w : Word) : (s.setI w).i = w := rfl
@[simp] theorem State.setI_stack (w : Word) : (s.setI w).stack = s.stack := rfl
@[simp] theorem State.setI_sp (w : Word) : (s.setI w).sp = s.sp := rfl
@[simp] theorem State.setI_dt (w : Word) : (s.setI w).dt = s.dt := rfl
@[simp] theorem State.setI_st (w : Word) : (s.setI w).st = s.st := rfl
@[simp] theorem State.setI_fb (w : Word) : (s.setI w).fb = s.fb := rfl
@[simp] theorem State.setI_redraw (w : Word) : (s.setI w).redraw = s.redraw := rfl
@[simp] theorem State.setI_mem (w : Word) : (s.setI w).mem = s.mem := rfl
@[simp] theorem State.setI_fault (w : Word) : (s.setI w).fault = s.fault := rfl
@[simp] theorem State.setI_keys (w : Word) : (s.setI w).keys = s.keys := rfl
@[simp] theorem State.setI_draws (w : Word) : (s.setI w).draws = s.draws := rfl
@[simp] theorem State.setI_sched (w : Word) : (s.setI w).sched = s.sched := rfl
@[simp] theorem State.setI_reg (w : Word) (r : Reg) : (s.setI w).reg r = s.reg r := rfl
@[simp] theorem State.setI_readMem (w : Word) (a : Nat) : (s.setI w).readMem a = s.readMem a := rfl

/-! ### setDt -/

@[simp] theorem State.setDt_v (b : Byte) : (s.setDt b).v = s.v := rfl
@[simp] theorem State.setDt_pc (b : Byte) : (s.setDt b).pc = s.pc := rfl
@[simp] theorem State.setDt_i (b : Byte) : (s.setDt b).i = s.i := rfl
@[simp] theorem State.setDt_stack (b : Byte) : (s.setDt b).stack = s.stack := rfl
@[simp] theorem State.setDt_sp (b : Byte) : (s.setDt b).sp = s.sp := rfl
@[simp] theorem State.setDt_dt (b : Byte) : (s.setDt b).dt = b := rfl
@[simp] theorem State.setDt_st (b : Byte) : (s.setDt b).st = s.st := rfl
@[simp] theorem State.setDt_fb (b : Byte) : (s.setDt b).fb = s.fb := rfl
@[simp] theorem State.setDt_redraw (b : Byte) : (s.setDt b).redraw = s.redraw := rfl
@[simp] theorem State.setDt_mem (b : Byte) : (s.setDt b).mem = s.mem := rfl
@[simp] theorem State.setDt_fault (b : Byte) : (s.setDt b).fault = s.fault := rfl
@[simp] theorem State.setDt_keys (b : Byte) : (s.setDt b).keys = s.keys := rfl
@[simp] theorem State.setDt_draws (b : Byte) : (s.setDt b).draws = s.draws := rfl
@[simp] theorem State.setDt_sched (b : Byte) : (s.setDt b).sched = s.sched := rfl
@[simp] theorem State.setDt_reg (b : Byte) (r : Reg) : (s.setDt b).reg r = s.reg r := rfl
@[simp] theorem State.setDt_readMem (b : Byte) (a : Nat) : (s.setDt b).readMem a = s.readMem a := rfl

/-! ### setSt -/

@[simp] theorem State.setSt_v (b : Byte) : (s.setSt b).v = s.v := rfl
@[simp] theorem State.setSt_pc (b : Byte) : (s.setSt b).pc = s.pc := rfl
@[simp] theorem State.setSt_i (b : Byte) : (s.setSt b).i = s.i := rfl
@[simp] theorem State.setSt_stack (b : Byte) : (s.setSt b).stack = s.stack := rfl
@[simp] theorem State.setSt_sp (b : Byte) : (s.setSt b).sp = s.sp := rfl
@[simp] theorem State.setSt_dt (b : Byte) : (s.setSt b).dt = s.dt := rfl
@[simp] theorem State.setSt_st (b : Byte) : (s.setSt b).st = b := rfl
@[simp] theorem State.setSt_fb (b : Byte) : (s.setSt b).fb = s.fb := rfl
@[simp] theorem State.setSt_redraw (b : Byte) : (s.setSt b).redraw = s.redraw := rfl
@[simp] theorem State.setSt_mem (b : Byte) : (s.setSt b).mem = s.mem := rfl
@[simp] theorem State.setSt_fault (b : Byte) : (s.setSt b).fault = s.fault := rfl
@[simp] theorem State.setSt_keys (b : Byte) : (s.setSt b).keys = s.keys := rfl
@[simp] theorem State.setSt_draws (b : Byte) : (s.setSt b).draws = s.draws := rfl
@[simp] theorem State.setSt_sched (b : Byte) : (s.setSt b).sched = s.sched := rfl
@[simp] theorem State.setSt_reg (b : Byte) (r : Reg) : (s.setSt b).reg r = s.reg r := rfl
@[simp] theorem State.setSt_readMem (b : Byte) (a : Nat) : (s.setSt b).readMem a = s.readMem a := rfl

/-! ### setFb -/

@[simp] theorem State.setFb_v (f : Frame) : (s.setFb f).v = s.v := rfl
@[simp] theorem State.setFb_pc (f : Frame) : (s.setFb f).pc = s.pc := rfl
@[simp] theorem State.setFb_i (f : Frame) : (s.setFb f).i = s.i := rfl
@[simp] theorem State.setFb_stack (f : Frame) : (s.setFb f).stack = s.stack := rfl
@[simp] theorem State.setFb_sp (f : Frame) : (s.setFb f).sp = s.sp := rfl
@[simp] theorem State.setFb_dt (f : Frame) : (s.setFb f).dt = s.dt := rfl
@[simp] theorem State.setFb_st (f : Frame) : (s.setFb f).st = s.st := rfl
@[simp] theorem State.setFb_fb (f : Frame) : (s.setFb f).fb = f := rfl
@[simp] theorem State.setFb_redraw (f : Frame) : (s.setFb f).redraw = s.redraw := rfl
@[simp] theorem State.setFb_mem (f : Frame) : (s.setFb f).mem = s.mem := rfl
@[simp] theorem State.setFb_fault (f : Frame) : (s.setFb f).fault = s.fault := rfl
@[simp] theorem State.setFb_keys (f : Frame) : (s.setFb f).keys = s.keys := rfl
@[simp] theorem State.setFb_draws (f : Frame) : (s.setFb f).draws = s.draws := rfl
@[simp] theorem State.setFb_sched (f : Frame) : (s.setFb f).sched = s.sched := rfl
@[simp] theorem State.setFb_reg (f : Frame) (r : Reg) : (s.setFb f).reg r = s.reg r := rfl
@[simp] theorem State.setFb_readMem (f : Frame) (a : Nat) : (s.setFb f).readMem a = s.readMem a := rfl

/-! ### setRedraw -/

@[simp] theorem State.setRedraw_v (b : Bool) : (s.setRedraw b).v = s.v := rfl
@[simp] theorem State.setRedraw_pc (b : Bool) : (s.setRedraw b).pc = s.pc := rfl
@[simp] theorem State.setRedraw_i (b : Bool) : (s.setRedraw b).i = s.i := rfl
@[simp] theorem State.setRedraw_stack (b : Bool) : (s.setRedraw b).stack = s.stack := rfl
@[simp] theorem State.setRedraw_sp (b : Bool) : (s.setRedraw b).sp = s.sp := rfl
@[simp] theorem State.setRedraw_dt (b : Bool) : (s.setRedraw b).dt = s.dt := rfl
@[simp] theorem State.setRedraw_st (b : Bool) : (s.setRedraw b).st = s.st := rfl
@[simp] theorem State.setRedraw_fb (b : Bool) : (s.setRedraw b).fb = s.fb := rfl
@[simp] theorem State.setRedraw_redraw (b : Bool) : (s.setRedraw b).redraw = b := rfl
@[simp] theorem State.setRedraw_mem (b : Bool) : (s.setRedraw b).mem = s.mem := rfl
@[simp] theorem State.setRedraw_fault (b : Bool) : (s.setRedraw b).fault = s.fault := rfl
@[simp] theorem State.setRedraw_keys (b : Bool) : (s.setRedraw b).keys = s.keys := rfl
@[simp] theorem State.setRedraw_draws (b : Bool) : (s.setRedraw b).draws = s.draws := rfl
@[simp] theorem State.setRedraw_sched (b : Bool) : (s.setRedraw b).sched = s.sched := rfl
@[simp] theorem State.setRedraw_reg (b : Bool) (r : Reg) : (s.setRedraw b).reg r = s.reg r := rfl
@[simp] theorem State.setRedraw_readMem (b : Bool) (a : Nat) : (s.setRedraw b).readMem a = s.readMem a := rfl

/-! ### setMem -/

@[simp] theorem State.setMem_v (m : Memory) : (s.setMem m).v = s.v := rfl
@[simp] theorem State.setMem_pc (m : Memory) : (s.setMem m).pc = s.pc := rfl
@[simp] theorem State.setMem_i (m : Memory) : (s.setMem m).i = s.i := rfl
@[simp] theorem State.setMem_stack (m : Memory) : (s.setMem m).stack = s.stack := rfl
@[simp] theorem State.setMem_sp (m : Memory) : (s.setMem m).sp = s.sp := rfl
@[simp] theorem State.setMem_dt (m : Memory) : (s.setMem m).dt = s.dt := rfl
@[simp] theorem State.setMem_st (m : Memory) : (s.setMem m).st = s.st := rfl
@[simp] theorem State.setMem_fb (m : Memory) : (s.setMem m).fb = s.fb := rfl
@[simp] theorem State.setMem_redraw (m : Memory) : (s.setMem m).redraw = s.redraw := rfl
@[simp] theorem State.setMem_mem (m : Memory) : (s.setMem m).mem = m := rfl
@[simp] theorem State.setMem_fault (m : Memory) : (s.setMem m).fault = s.fault := rfl
@[simp] theorem State.setMem_keys (m : Memory) : (s.setMem m).keys = s.keys := rfl
@[simp] theorem State.setMem_draws (m : Memory) : (s.setMem m).draws = s.draws := rfl
@[simp] theorem State.setMem_sched (m : Memory) : (s.setMem m).sched = s.sched := rfl
@[simp] theorem State.setMem_reg (m : Memory) (r : Reg) : (s.setMem m).reg r = s.reg r := rfl

/-! ### setFault -/

@[simp] theorem State.setFault_v (f : Option Fault) : (s.setFault f).v = s.v := rfl
@[simp] theorem State.setFault_pc (f : Option Fault) : (s.setFault f).pc = s.pc := rfl
@[simp] theorem State.setFault_i (f : Option Fault) : (s.setFault f).i = s.i := rfl
@[simp] theorem State.setFault_stack (f : Option Fault) : (s.setFault f).stack = s.stack := rfl
@[simp] theorem State.setFault_sp (f : Option Fault) : (s.setFault f).sp = s.sp := rfl
@[simp] theorem State.setFault_dt (f : Option Fault) : (s.setFault f).dt = s.dt := rfl
@[simp] theorem State.setFault_st (f : Option Fault) : (s.setFault f).st = s.st := rfl
@[simp] theorem State.setFault_fb (f : Option Fault) : (s.setFault f).fb = s.fb := rfl
@[simp] theorem State.setFault_redraw (f : Option Fault) : (s.setFault f).redraw = s.redraw := rfl
@[simp] theorem State.setFault_mem (f : Option Fault) : (s.setFault f).mem = s.mem := rfl
@[simp] theorem State.setFault_fault (f : Option Fault) : (s.setFault f).fault = f := rfl
@[simp] theorem State.setFault_keys (f : Option Fault) : (s.setFault f).keys = s.keys := rfl
@[simp] theorem State.setFault_draws (f : Option Fault) : (s.setFault f).draws = s.draws := rfl
@[simp] theorem State.setFault_sched (f : Option Fault) : (s.setFault f).sched = s.sched := rfl
@[simp] theorem State.setFault_reg (f : Option Fault) (r : Reg) : (s.setFault f).reg r = s.reg r := rfl
@[simp] theorem State.setFault_readMem (f : Option Fault) (a : Nat) : (s.setFault f).readMem a = s.readMem a := rfl

/-! ### setKeys -/

@[simp] theorem State.setKeys_v (k : BitVec 16) : (s.setKeys k).v = s.v := rfl
@[simp] theorem State.setKeys_pc (k : BitVec 16) : (s.setKeys k).pc = s.pc := rfl
@[simp] theorem State.setKeys_i (k : BitVec 16) : (s.setKeys k).i = s.i := rfl
@[simp] theorem State.setKeys_stack (k : BitVec 16) : (s.setKeys k).stack = s.stack := rfl
@[simp] theorem State.setKeys_sp (k : BitVec 16) : (s.setKeys k).sp = s.sp := rfl
@[simp] theorem State.setKeys_dt (k : BitVec 16) : (s.setKeys k).dt = s.dt := rfl
@[simp] theorem State.setKeys_st (k : BitVec 16) : (s.setKeys k).st = s.st := rfl
@[simp] theorem State.setKeys_fb (k : BitVec 16) : (s.setKeys k).fb = s.fb := rfl
@[simp] theorem State.setKeys_redraw (k : BitVec 16) : (s.setKeys k).redraw = s.redraw := rfl
@[simp] theorem State.setKeys_mem (k : BitVec 16) : (s.setKeys k).mem = s.mem := rfl
@[simp] theorem State.setKeys_fault (k : BitVec 16) : (s.setKeys k).fault = s.fault := rfl
@[simp] theorem State.setKeys_keys (k : BitVec 16) : (s.setKeys k).keys = k := rfl
@[simp] theorem State.setKeys_draws (k : BitVec 16) : (s.setKeys k).draws = s.draws := rfl
@[simp] theorem State.setKeys_sched (k : BitVec 16) : (s.setKeys k).sched = s.sched := rfl
@[simp] theorem State.setKeys_reg (k : BitVec 16) (r : Reg) : (s.setKeys k).reg r = s.reg r := rfl
@[simp] theorem State.setKeys_readMem (k : BitVec 16) (a : Nat) : (s.setKeys k).readMem a = s.readMem a := rfl

/-! ### countDraw -/

@[simp] theorem State.countDraw_v : (s.countDraw).v = s.v := rfl
@[simp] theorem State.countDraw_pc : (s.countDraw).pc = s.pc := rfl
@[simp] theorem State.countDraw_i : (s.countDraw).i = s.i := rfl
@[simp] theorem State.countDraw_stack : (s.countDraw).stack = s.stack := rfl
@[simp] theorem State.countDraw_sp : (s.countDraw).sp = s.sp := rfl
@[simp] theorem State.countDraw_dt : (s.countDraw).dt = s.dt := rfl
@[simp] theorem State.countDraw_st : (s.countDraw).st = s.st := rfl
@[simp] theorem State.countDraw_fb : (s.countDraw).fb = s.fb := rfl
@[simp] theorem State.countDraw_redraw : (s.countDraw).redraw = s.redraw := rfl
@[simp] theorem State.countDraw_mem : (s.countDraw).mem = s.mem := rfl
@[simp] theorem State.countDraw_fault : (s.countDraw).fault = s.fault := rfl
@[simp] theorem State.countDraw_keys : (s.countDraw).keys = s.keys := rfl
@[simp] theorem State.countDraw_draws : (s.countDraw).draws = s.draws + 1 := rfl
@[simp] theorem State.countDraw_sched : (s.countDraw).sched = s.sched := rfl
@[simp] theorem State.countDraw_reg (r : Reg) : (s.countDraw).reg r = s.reg r := rfl
@[simp] theorem State.countDraw_readMem (a : Nat) : (s.countDraw).readMem a = s.readMem a := rfl

/-! ### setSched -/

@[simp] theorem State.setSched_v (es : List RunEvent) : (s.setSched es).v = s.v := rfl
@[simp] theorem State.setSched_pc (es : List RunEvent) : (s.setSched es).pc = s.pc := rfl
@[simp] theorem State.setSched_i (es : List RunEvent) : (s.setSched es).i = s.i := rfl
@[simp] theorem State.setSched_stack (es : List RunEvent) : (s.setSched es).stack = s.stack := rfl
@[simp] theorem State.setSched_sp (es : List RunEvent) : (s.setSched es).sp = s.sp := rfl
@[simp] theorem State.setSched_dt (es : List RunEvent) : (s.setSched es).dt = s.dt := rfl
@[simp] theorem State.setSched_st (es : List RunEvent) : (s.setSched es).st = s.st := rfl
@[simp] theorem State.setSched_fb (es : List RunEvent) : (s.setSched es).fb = s.fb := rfl
@[simp] theorem State.setSched_redraw (es : List RunEvent) : (s.setSched es).redraw = s.redraw := rfl
@[simp] theorem State.setSched_mem (es : List RunEvent) : (s.setSched es).mem = s.mem := rfl
@[simp] theorem State.setSched_fault (es : List RunEvent) : (s.setSched es).fault = s.fault := rfl
@[simp] theorem State.setSched_keys (es : List RunEvent) : (s.setSched es).keys = s.keys := rfl
@[simp] theorem State.setSched_draws (es : List RunEvent) : (s.setSched es).draws = s.draws := rfl
@[simp] theorem State.setSched_sched (es : List RunEvent) : (s.setSched es).sched = es := rfl
@[simp] theorem State.setSched_reg (es : List RunEvent) (r : Reg) : (s.setSched es).reg r = s.reg r := rfl
@[simp] theorem State.setSched_readMem (es : List RunEvent) (a : Nat) : (s.setSched es).readMem a = s.readMem a := rfl

/-! ### push -/

@[simp] theorem State.push_v (w : Word) (h : s.sp.val < 16) : (s.push w h).v = s.v := rfl
@[simp] theorem State.push_pc (w : Word) (h : s.sp.val < 16) : (s.push w h).pc = s.pc := rfl
@[simp] theorem State.push_i (w : Word) (h : s.sp.val < 16) : (s.push w h).i = s.i := rfl
@[simp] theorem State.push_stack (w : Word) (h : s.sp.val < 16) : (s.push w h).stack = s.stack.set s.sp.val w := rfl
@[simp] theorem State.push_sp (w : Word) (h : s.sp.val < 16) : (s.push w h).sp = ⟨s.sp.val + 1, Nat.succ_lt_succ h⟩ := rfl
@[simp] theorem State.push_dt (w : Word) (h : s.sp.val < 16) : (s.push w h).dt = s.dt := rfl
@[simp] theorem State.push_st (w : Word) (h : s.sp.val < 16) : (s.push w h).st = s.st := rfl
@[simp] theorem State.push_fb (w : Word) (h : s.sp.val < 16) : (s.push w h).fb = s.fb := rfl
@[simp] theorem State.push_redraw (w : Word) (h : s.sp.val < 16) : (s.push w h).redraw = s.redraw := rfl
@[simp] theorem State.push_mem (w : Word) (h : s.sp.val < 16) : (s.push w h).mem = s.mem := rfl
@[simp] theorem State.push_fault (w : Word) (h : s.sp.val < 16) : (s.push w h).fault = s.fault := rfl
@[simp] theorem State.push_keys (w : Word) (h : s.sp.val < 16) : (s.push w h).keys = s.keys := rfl
@[simp] theorem State.push_draws (w : Word) (h : s.sp.val < 16) : (s.push w h).draws = s.draws := rfl
@[simp] theorem State.push_sched (w : Word) (h : s.sp.val < 16) : (s.push w h).sched = s.sched := rfl
@[simp] theorem State.push_reg (w : Word) (h : s.sp.val < 16) (r : Reg) : (s.push w h).reg r = s.reg r := rfl
@[simp] theorem State.push_readMem (w : Word) (h : s.sp.val < 16) (a : Nat) : (s.push w h).readMem a = s.readMem a := rfl

/-! ### pop -/

@[simp] theorem State.pop_v : (s.pop).v = s.v := rfl
@[simp] theorem State.pop_pc : (s.pop).pc = s.pc := rfl
@[simp] theorem State.pop_i : (s.pop).i = s.i := rfl
@[simp] theorem State.pop_stack : (s.pop).stack = s.stack := rfl
@[simp] theorem State.pop_sp : (s.pop).sp = ⟨s.sp.val - 1, Nat.lt_of_le_of_lt (Nat.sub_le _ _) s.sp.isLt⟩ := rfl
@[simp] theorem State.pop_dt : (s.pop).dt = s.dt := rfl
@[simp] theorem State.pop_st : (s.pop).st = s.st := rfl
@[simp] theorem State.pop_fb : (s.pop).fb = s.fb := rfl
@[simp] theorem State.pop_redraw : (s.pop).redraw = s.redraw := rfl
@[simp] theorem State.pop_mem : (s.pop).mem = s.mem := rfl
@[simp] theorem State.pop_fault : (s.pop).fault = s.fault := rfl
@[simp] theorem State.pop_keys : (s.pop).keys = s.keys := rfl
@[simp] theorem State.pop_draws : (s.pop).draws = s.draws := rfl
@[simp] theorem State.pop_sched : (s.pop).sched = s.sched := rfl
@[simp] theorem State.pop_reg (r : Reg) : (s.pop).reg r = s.reg r := rfl
@[simp] theorem State.pop_readMem (a : Nat) : (s.pop).readMem a = s.readMem a := rfl

/-! ### advance -/

@[simp] theorem State.advance_v : (s.advance).v = s.v := rfl
@[simp] theorem State.advance_pc : (s.advance).pc = s.pc + 2 := rfl
@[simp] theorem State.advance_i : (s.advance).i = s.i := rfl
@[simp] theorem State.advance_stack : (s.advance).stack = s.stack := rfl
@[simp] theorem State.advance_sp : (s.advance).sp = s.sp := rfl
@[simp] theorem State.advance_dt : (s.advance).dt = s.dt := rfl
@[simp] theorem State.advance_st : (s.advance).st = s.st := rfl
@[simp] theorem State.advance_fb : (s.advance).fb = s.fb := rfl
@[simp] theorem State.advance_redraw : (s.advance).redraw = s.redraw := rfl
@[simp] theorem State.advance_mem : (s.advance).mem = s.mem := rfl
@[simp] theorem State.advance_fault : (s.advance).fault = s.fault := rfl
@[simp] theorem State.advance_keys : (s.advance).keys = s.keys := rfl
@[simp] theorem State.advance_draws : (s.advance).draws = s.draws := rfl
@[simp] theorem State.advance_sched : (s.advance).sched = s.sched := rfl
@[simp] theorem State.advance_reg (r : Reg) : (s.advance).reg r = s.reg r := rfl
@[simp] theorem State.advance_readMem (a : Nat) : (s.advance).readMem a = s.readMem a := rfl

/-! ### dropEvent -/

@[simp] theorem State.dropEvent_v : (s.dropEvent).v = s.v := rfl
@[simp] theorem State.dropEvent_pc : (s.dropEvent).pc = s.pc := rfl
@[simp] theorem State.dropEvent_i : (s.dropEvent).i = s.i := rfl
@[simp] theorem State.dropEvent_stack : (s.dropEvent).stack = s.stack := rfl
@[simp] theorem State.dropEvent_sp : (s.dropEvent).sp = s.sp := rfl
@[simp] theorem State.dropEvent_dt : (s.dropEvent).dt = s.dt := rfl
@[simp] theorem State.dropEvent_st : (s.dropEvent).st = s.st := rfl
@[simp] theorem State.dropEvent_fb : (s.dropEvent).fb = s.fb := rfl
@[simp] theorem State.dropEvent_redraw : (s.dropEvent).redraw = s.redraw := rfl
@[simp] theorem State.dropEvent_mem : (s.dropEvent).mem = s.mem := rfl
@[simp] theorem State.dropEvent_fault : (s.dropEvent).fault = s.fault := rfl
@[simp] theorem State.dropEvent_keys : (s.dropEvent).keys = s.keys := rfl
@[simp] theorem State.dropEvent_draws : (s.dropEvent).draws = s.draws := rfl
@[simp] theorem State.dropEvent_sched : (s.dropEvent).sched = s.sched.tail := rfl
@[simp] theorem State.dropEvent_reg (r : Reg) : (s.dropEvent).reg r = s.reg r := rfl
@[simp] theorem State.dropEvent_readMem (a : Nat) : (s.dropEvent).readMem a = s.readMem a := rfl

/-! ### writeMem -/

@[simp] theorem State.writeMem_v (a : Nat) (w : Byte) : (s.writeMem a w).v = s.v := rfl
@[simp] theorem State.writeMem_pc (a : Nat) (w : Byte) : (s.writeMem a w).pc = s.pc := rfl
@[simp] theorem State.writeMem_i (a : Nat) (w : Byte) : (s.writeMem a w).i = s.i := rfl
@[simp] theorem State.writeMem_stack (a : Nat) (w : Byte) : (s.writeMem a w).stack = s.stack := rfl
@[simp] theorem State.writeMem_sp (a : Nat) (w : Byte) : (s.writeMem a w).sp = s.sp := rfl
@[simp] theorem State.writeMem_dt (a : Nat) (w : Byte) : (s.writeMem a w).dt = s.dt := rfl
@[simp] theorem State.writeMem_st (a : Nat) (w : Byte) : (s.writeMem a w).st = s.st := rfl
@[simp] theorem State.writeMem_fb (a : Nat) (w : Byte) : (s.writeMem a w).fb = s.fb := rfl
@[simp] theorem State.writeMem_redraw (a : Nat) (w : Byte) : (s.writeMem a w).redraw = s.redraw := rfl
@[simp] theorem State.writeMem_mem (a : Nat) (w : Byte) : (s.writeMem a w).mem = Memory.write s.mem a w := rfl
@[simp] theorem State.writeMem_fault (a : Nat) (w : Byte) : (s.writeMem a w).fault = s.fault := rfl
@[simp] theorem State.writeMem_keys (a : Nat) (w : Byte) : (s.writeMem a w).keys = s.keys := rfl
@[simp] theorem State.writeMem_draws (a : Nat) (w : Byte) : (s.writeMem a w).draws = s.draws := rfl
@[simp] theorem State.writeMem_sched (a : Nat) (w : Byte) : (s.writeMem a w).sched = s.sched := rfl
@[simp] theorem State.writeMem_reg (a : Nat) (w : Byte) (r : Reg) : (s.writeMem a w).reg r = s.reg r := rfl

/-! ### writeMemBytes -/

@[simp] theorem State.writeMemBytes_v (a : Nat) (bytes : List Byte) : (s.writeMemBytes a bytes).v = s.v := rfl
@[simp] theorem State.writeMemBytes_pc (a : Nat) (bytes : List Byte) : (s.writeMemBytes a bytes).pc = s.pc := rfl
@[simp] theorem State.writeMemBytes_i (a : Nat) (bytes : List Byte) : (s.writeMemBytes a bytes).i = s.i := rfl
@[simp] theorem State.writeMemBytes_stack (a : Nat) (bytes : List Byte) : (s.writeMemBytes a bytes).stack = s.stack := rfl
@[simp] theorem State.writeMemBytes_sp (a : Nat) (bytes : List Byte) : (s.writeMemBytes a bytes).sp = s.sp := rfl
@[simp] theorem State.writeMemBytes_dt (a : Nat) (bytes : List Byte) : (s.writeMemBytes a bytes).dt = s.dt := rfl
@[simp] theorem State.writeMemBytes_st (a : Nat) (bytes : List Byte) : (s.writeMemBytes a bytes).st = s.st := rfl
@[simp] theorem State.writeMemBytes_fb (a : Nat) (bytes : List Byte) : (s.writeMemBytes a bytes).fb = s.fb := rfl
@[simp] theorem State.writeMemBytes_redraw (a : Nat) (bytes : List Byte) : (s.writeMemBytes a bytes).redraw = s.redraw := rfl
@[simp] theorem State.writeMemBytes_mem (a : Nat) (bytes : List Byte) : (s.writeMemBytes a bytes).mem = Memory.writeBytes s.mem a bytes := rfl
@[simp] theorem State.writeMemBytes_fault (a : Nat) (bytes : List Byte) : (s.writeMemBytes a bytes).fault = s.fault := rfl
@[simp] theorem State.writeMemBytes_keys (a : Nat) (bytes : List Byte) : (s.writeMemBytes a bytes).keys = s.keys := rfl
@[simp] theorem State.writeMemBytes_draws (a : Nat) (bytes : List Byte) : (s.writeMemBytes a bytes).draws = s.draws := rfl
@[simp] theorem State.writeMemBytes_sched (a : Nat) (bytes : List Byte) : (s.writeMemBytes a bytes).sched = s.sched := rfl
@[simp] theorem State.writeMemBytes_reg (a : Nat) (bytes : List Byte) (r : Reg) : (s.writeMemBytes a bytes).reg r = s.reg r := rfl

end Sys2Proof.Machine
end

