-- ==== Sys2Proof/Laws/Ops.lean ====
section
/-!
SUPPORT. One lemma for each shared operation that says what it does, for the provers to cite instead of
unfolding it: ranges, the call stack, the inputs, fields and flags, pixels, and the loops.
-/
namespace Sys2Proof.Machine

/-! ### Ranges and faults -/

theorem inRange_iff {a len : Nat} : inRange a len = true ↔ len = 0 ∨ a + len ≤ 0x1000 := by
  simp only [inRange, Bool.not_eq_true', Bool.and_eq_false_iff, decide_eq_false_iff_not]
  omega

theorem checked_inside {a len : Nat} {s : State} {rest : Result} (h : len = 0 ∨ a + len ≤ 0x1000) :
    checked a len s rest = rest := by
  simp [checked, inRange_iff.2 h]

theorem checked_outside {a len : Nat} {s : State} {rest : Result} (h : 1 ≤ len)
    (h' : 0x1000 < a + len) : checked a len s rest = raise .memoryOutOfRange s := by
  have : inRange a len = false := by
    cases hr : inRange a len
    · rfl
    · have := inRange_iff.1 hr; omega
  simp [checked, this]

/-- All a checked rule can do: raise the fault over a range that leaves memory, or go on. -/
theorem checked_cases {a len : Nat} {s t : State} {rest : Result} (h : checked a len s rest = .next t) :
    (1 ≤ len ∧ 0x1000 < a + len ∧ t = s.setFault (some .memoryOutOfRange)) ∨
    ((len = 0 ∨ a + len ≤ 0x1000) ∧ rest = .next t) := by
  by_cases hr : len = 0 ∨ a + len ≤ 0x1000
  · exact .inr ⟨hr, by rwa [checked_inside hr] at h⟩
  · rw [checked_outside (by omega) (by omega)] at h
    exact .inl ⟨by omega, by omega, by simpa [raise, eq_comm] using h⟩

/-! ### The call stack -/

/-- A push writes the entry at sp and no other. -/
theorem State.push_entry (s : State) (w : Word) (h : s.sp.val < 16) (k : Fin 16) :
    (s.push w h).stack[k] = if k.val = s.sp.val then w else s.stack[k] := by
  simp only [State.push_stack, Fin.getElem_fin]
  rw [Vector.getElem_set]
  simp only [eq_comm]

/-- The top of a stack is the entry below sp. -/
theorem State.top_eq (s : State) (k : Fin 16) (h : s.sp.val = k.val + 1) :
    s.top (by omega) = s.stack[k] := by
  simp only [State.top, Fin.getElem_fin]
  congr 1
  omega

/-! ### The inputs -/

theorem mem_heldKeys {keys : BitVec 16} {k : Reg} : k ∈ heldKeys keys ↔ keys.getLsbD k.val = true := by
  simp [heldKeys]

theorem heldKeys_eq_nil {keys : BitVec 16} : heldKeys keys = [] ↔ keys = 0 := by
  constructor
  · intro h
    apply BitVec.eq_of_getLsbD_eq
    intro i hi
    have hn : (⟨i, hi⟩ : Reg) ∉ heldKeys keys := by simp [h]
    rw [mem_heldKeys] at hn
    simpa using hn
  · rintro rfl
    simp [heldKeys]

/-- KEY_PICK picks one of the keys held (R217). -/
theorem keyPick_mem {keys : BitVec 16} {held : List Reg} {k : Reg} (h : keyPick keys held = some k) :
    k ∈ held := by
  match held, h with
  | [_], h => simpa [keyPick, eq_comm] using h
  | _ :: _ :: _, h => exact List.mem_of_getElem? h

/-- With a key held there is a pressed key (R217). -/
theorem keyPick_some {keys : BitVec 16} {held : List Reg} (h : held ≠ []) :
    ∃ k, keyPick keys held = some k := by
  match held, h with
  | [k], _ => exact ⟨k, rfl⟩
  | a :: b :: more, _ =>
    simp only [keyPick]
    exact ⟨_, List.getElem?_eq_getElem (Nat.mod_lt _ (by simp))⟩

/-- No key is pressed exactly when KEYS is 0; else a held key is (R217). -/
theorem pressedKey_cases (s : State) :
    (s.keys = 0 ∧ pressedKey s = none) ∨
    (s.keys ≠ 0 ∧ ∃ k, pressedKey s = some k ∧ s.keys.getLsbD k.val = true) := by
  by_cases h : s.keys = 0
  · exact .inl ⟨h, by simp [pressedKey, heldKeys_eq_nil.2 h, keyPick]⟩
  · obtain ⟨k, hk⟩ := keyPick_some (keys := s.keys) (mt heldKeys_eq_nil.1 h)
    exact .inr ⟨h, k, hk, mem_heldKeys.1 (keyPick_mem hk)⟩

/-! ### Operands -/

@[simp] theorem addrWord_toNat (nnn : Addr12) : (addrWord nnn).toNat = nnn.toNat := by
  have := nnn.isLt
  simp [addrWord, BitVec.toNat_setWidth]
  omega

@[simp] theorem byteWord_toNat (b : Byte) : (byteWord b).toNat = b.toNat := by
  have := b.isLt
  simp [byteWord, BitVec.toNat_setWidth]
  omega

theorem lowNibble_val (b : Byte) : (lowNibble b).val = b.toNat % 16 := by
  simp [lowNibble, regOf]

theorem originCol_eq (s : State) (x : Reg) : originCol s x = (s.reg x).toNat % 64 :=
  Nat.and_two_pow_sub_one_eq_mod _ 6

theorem originRow_eq (s : State) (y : Reg) : originRow s y = (s.reg y).toNat % 32 :=
  Nat.and_two_pow_sub_one_eq_mod _ 5

@[simp] theorem bcdDigits_length (b : Byte) : (bcdDigits b).length = 3 := rfl

@[simp] theorem regsUpTo_length (s : State) (x : Reg) : (regsUpTo s x).length = x.val + 1 := by
  have := x.isLt
  simp [regsUpTo]

theorem regsUpTo_getElem (s : State) (x k : Reg) (h : k.val < (regsUpTo s x).length) :
    (regsUpTo s x)[k.val] = s.reg k := by
  simp [regsUpTo, State.reg]

/-! ### Transfers -/

/-- Fx65 gives each of the first `count` registers the byte at I plus its number, and leaves the rest. -/
theorem loadRegsFrom_spec (s : State) (count : Nat) :
    (∀ r : Reg, (loadRegsFrom s count).reg r =
      if r.val < count then s.readMem (effAddr s r.val) else s.reg r) ∧
    loadRegsFrom s count = { s with v := (loadRegsFrom s count).v } := by
  induction count with
  | zero => exact ⟨fun r => by simp [loadRegsFrom], rfl⟩
  | succ k ih =>
    obtain ⟨hr, hs⟩ := ih
    have hm : ∀ a, (loadRegsFrom s k).readMem a = s.readMem a := fun a => by rw [hs]; rfl
    have he : effAddr (loadRegsFrom s k) k = effAddr s k := by unfold effAddr; rw [hs]
    unfold loadRegsFrom
    simp only
    split
    · refine ⟨fun r => ?_, by rw [hs]; rfl⟩
      rw [State.reg_setReg, hr, hm, he]
      by_cases h : r = ⟨k, ‹_›⟩
      · subst h; simp
      · have h' : r.val ≠ k := fun e => h (Fin.ext e)
        have h2 : r.val < k + 1 ↔ r.val < k := by omega
        simp [h, h2]
    · refine ⟨fun r => ?_, hs⟩
      have h2 : r.val < k + 1 ↔ r.val < k := by have := r.isLt; omega
      rw [hr]; simp [h2]

/-! ### Pixels -/

theorem pixelIndex_inj {row col row' col' : Nat} (hc : col < 64) (hc' : col' < 64) :
    pixelIndex row col = pixelIndex row' col' ↔ row = row' ∧ col = col' := by
  simp only [pixelIndex, Config.screenW]
  omega

/-- Flipping a pixel inside the buffer inverts it and no other (R161). -/
theorem pixel_flipPixel (f : Frame) {row col row' col' : Nat} (hr : row < 32) (hc : col < 64)
    (hc' : col' < 64) :
    pixel (flipPixel f row col) row' col' =
      if row' = row ∧ col' = col then !pixel f row' col' else pixel f row' col' := by
  have hlt : pixelIndex row col < Config.pixelCount := by
    simp only [pixelIndex, Config.screenW, Config.pixelCount, Config.screenH]; omega
  simp only [pixel, flipPixel, BitVec.getLsbD_xor, BitVec.getLsbD_twoPow, hlt, decide_true, Bool.true_and]
  by_cases h : row' = row ∧ col' = col
  · simp [h]
  · have hne : pixelIndex row col ≠ pixelIndex row' col' := by
      rw [Ne, pixelIndex_inj hc hc']
      rintro ⟨rfl, rfl⟩
      exact h ⟨rfl, rfl⟩
    simp [h, hne]

/-- A touched pixel changes VF, FB and REDRAW only. -/
theorem touchPixel_frame (s : State) (row col : Nat) :
    (∀ r, r ≠ vf → (touchPixel s row col).reg r = s.reg r) ∧
    touchPixel s row col = { s with v := (touchPixel s row col).v, fb := flipPixel s.fb row col, redraw := true } := by
  unfold touchPixel
  split
  · exact ⟨fun r h => by simp [h], rfl⟩
  · exact ⟨fun r _ => rfl, rfl⟩

/-- A row of a draw changes VF, FB and REDRAW only. -/
theorem drawCols_frame (b : Byte) (row x0 count : Nat) (s : State) :
    (∀ r, r ≠ vf → (drawCols b row x0 count s).reg r = s.reg r) ∧
    drawCols b row x0 count s = { s with
      v := (drawCols b row x0 count s).v
      fb := (drawCols b row x0 count s).fb
      redraw := (drawCols b row x0 count s).redraw } := by
  induction count generalizing s with
  | zero => exact ⟨fun _ _ => rfl, rfl⟩
  | succ k ih =>
    unfold drawCols
    simp only
    split
    · exact ⟨fun _ _ => rfl, rfl⟩
    · split
      · obtain ⟨h1, h2⟩ := touchPixel_frame s row (x0 + (7 - k))
        obtain ⟨i1, i2⟩ := ih (touchPixel s row (x0 + (7 - k)))
        refine ⟨fun r h => by rw [i1 r h, h1 r h], ?_⟩
        rw [i2, h2]
      · exact ih s

/-- A draw changes VF, FB and REDRAW only (R162). -/
theorem drawRows_frame (x0 y0 r count : Nat) (s : State) :
    (∀ q, q ≠ vf → (drawRows x0 y0 r count s).reg q = s.reg q) ∧
    drawRows x0 y0 r count s = { s with
      v := (drawRows x0 y0 r count s).v
      fb := (drawRows x0 y0 r count s).fb
      redraw := (drawRows x0 y0 r count s).redraw } := by
  induction count generalizing s r with
  | zero => exact ⟨fun _ _ => rfl, rfl⟩
  | succ k ih =>
    unfold drawRows
    simp only
    split
    · exact ⟨fun _ _ => rfl, rfl⟩
    · obtain ⟨h1, h2⟩ := drawCols_frame (s.readMem (effAddr s r)) (y0 + r) x0 8 s
      obtain ⟨i1, i2⟩ := ih (r + 1) (drawCols (s.readMem (effAddr s r)) (y0 + r) x0 8 s)
      refine ⟨fun q h => by rw [i1 q h, h1 q h], ?_⟩
      rw [i2, h2]

end Sys2Proof.Machine
end

