-- ==== Sys2Proof/Laws/Display.lean ====
section
/-!
SUPPORT. What the sprite loops do, said once in terms of the pixels under a sprite bit 1 inside the window
(43_display.md R161 to R164), and all that Dxyn and Fx65 can do as frames.
-/
namespace Sys2Proof.Machine

/-- What the last `count` columns of a sprite row do, for the columns `on` of that row that lie under a sprite
bit 1 inside the window (R161 to R164). -/
theorem drawCols_spec (b : Byte) (row x0 : Nat) (hrow : row < 32) (count : Nat) (hcnt : count ≤ 8) (s : State)
    (on : Nat → Prop) [DecidablePred on] (hon : ∀ col, on col ↔ (x0 + (8 - count) ≤ col ∧ col < x0 + 8 ∧
        col < 64 ∧ b.getLsbD (7 - (col - x0)) = true)) :
    let t := drawCols b row x0 count s
    (∀ row' col, col < 64 → pixel t.fb row' col = if row' = row ∧ on col then
        !pixel s.fb row' col else pixel s.fb row' col) ∧
    (t.reg vf = 1 ∨ t.reg vf = s.reg vf) ∧
    ((∃ col, on col ∧ pixel s.fb row col = true) → t.reg vf = 1) ∧
    ((¬ ∃ col, on col ∧ pixel s.fb row col = true) → t.reg vf = s.reg vf) ∧
    (t.redraw = true ↔ s.redraw = true ∨ ∃ col, on col) := by
  induction count generalizing s on with
  | zero =>
    have : ∀ col, ¬ on col := by intro col; rw [hon]; omega
    simp [drawCols, this]
  | succ k ih =>
    simp only [drawCols]
    split
    · rename_i hw
      simp only [Config.screenW] at hw
      have : ∀ col, ¬ on col := by intro col; rw [hon]; omega
      simp [this]
    · rename_i hw
      simp only [Config.screenW, not_le] at hw
      classical
      obtain ⟨on', hd⟩ : ∃ on' : Nat → Prop, ∀ col, on' col ↔ (x0 + (8 - k) ≤ col ∧ col < x0 + 8 ∧
          col < 64 ∧ b.getLsbD (7 - (col - x0)) = true) := ⟨_, fun _ => Iff.rfl⟩
      have hon' : ∀ col, on' col → x0 + (7-k) < col ∧ col < 64 :=
          fun col h => by rw [hd] at h; exact ⟨by have := h.1; omega, h.2.2.1⟩
      have hiff : ∀ col, on col ↔ ((col = x0 + (7 - k) ∧ b.getLsbD k = true) ∨ on' col) := by
        intro col
        rw [hon, hd]
        constructor
        · rintro ⟨h1, h2, h3, h4⟩
          by_cases he : col = x0 + (7 - k)
          · left; refine ⟨he, ?_⟩; rw [show 7 - (col - x0) = k by omega] at h4; exact h4
          · right; exact ⟨by omega, h2, h3, h4⟩
        · rintro (⟨h1, h2⟩ | ⟨h1, h2, h3, h4⟩)
          · refine ⟨by omega, by omega, by omega, ?_⟩; rw [show 7 - (col - x0) = k by omega]; exact h2
          · exact ⟨by omega, h2, h3, h4⟩
      have ih' := fun s => ih (by omega) s on' hd
      clear ih hon hd
      simp only [spriteBit, show 7 - (7 - k) = k by omega]
      by_cases hb : b.getLsbD k = true
      · rw [if_pos hb]
        obtain ⟨i1, i0, i2, i3, i4⟩ := ih' (touchPixel s row (x0 + (7-k)))
        clear ih'
        have tf : (touchPixel s row (x0 + (7-k))).fb = flipPixel s.fb row (x0 + (7-k)) :=
            by rw [(touchPixel_frame _ _ _).2]
        have tr : (touchPixel s row (x0 + (7-k))).redraw = true := by rw [(touchPixel_frame _ _ _).2]
        have tv : (touchPixel s row (x0 + (7-k))).reg vf = if pixel s.fb row (x0 + (7-k)) then
            1 else s.reg vf := by
          unfold touchPixel; split <;> simp
        rw [tf] at i1 i2 i3
        rw [tv] at i0 i3
        simp only [hiff, hb, and_true]
        have hpix : ∀ row' col, col < 64 →
            pixel (flipPixel s.fb row (x0 + (7-k))) row' col = if row' = row ∧ col = x0 + (7-k) then
            !pixel s.fb row' col else pixel s.fb row' col :=
          fun row' col hcol => pixel_flipPixel s.fb hrow hw hcol
        refine ⟨?_, ?_, ?_, ?_, ?_⟩
        · intro row' col hcol
          rw [i1 row' col hcol, hpix row' col hcol]
          by_cases h1 : row' = row
          · by_cases h2 : col = x0 + (7-k)
            · have : ¬ on' col := fun h => by have := hon' col h; omega
              simp [h1, ← h2, this]
            · simp [h1, h2]
          · simp [h1]
        · rcases i0 with h | h
          · exact .inl h
          · split at h
            · exact .inl h
            · exact .inr h
        · rintro ⟨col, h1 | h1, h2⟩
          · subst h1
            rcases i0 with h | h
            · exact h
            · rw [h]; simp [h2]
          · apply i2
            refine ⟨col, h1, ?_⟩
            rw [hpix row col (hon' col h1).2]
            have : ¬ col = x0 + (7 - k) := by have := hon' col h1; omega
            simp [this, h2]
        · intro hn
          rw [i3]
          · split
            · rename_i hp; exact absurd ⟨_, .inl rfl, hp⟩ hn
            · rfl
          · rintro ⟨col, h1, h2⟩
            apply hn
            refine ⟨col, .inr h1, ?_⟩
            rw [hpix row col (hon' col h1).2] at h2
            have : ¬ col = x0 + (7 - k) := by have := hon' col h1; omega
            simpa [this] using h2
        · rw [i4, tr]; simp
      · rw [if_neg hb]
        simpa [hiff, hb] using ih' s

/-- What the rows of a draw do, for the pixels `on` that lie under a sprite bit 1 inside the window (R161 to
R164): each is inverted, VF ends as 1 exactly when one of them was on (else it stays), REDRAW is set exactly
when there is one. -/
theorem drawRows_spec (x0 y0 r count : Nat) (s : State)
    (on : Nat → Nat → Prop) [∀ a, DecidablePred (on a)] (hon : ∀ row col, on row col ↔ (y0 + r ≤ row ∧
        row < y0 + r + count ∧ row < 32 ∧ x0 ≤ col ∧ col < x0 + 8 ∧ col < 64 ∧
        (s.readMem (effAddr s (row - y0))).getLsbD (7 - (col - x0)) = true)) :
    let t := drawRows x0 y0 r count s
    (∀ row col, col < 64 → pixel t.fb row col = if on row col then
        !pixel s.fb row col else pixel s.fb row col) ∧
    (t.reg vf = 1 ∨ t.reg vf = s.reg vf) ∧
    ((∃ row col, on row col ∧ pixel s.fb row col = true) → t.reg vf = 1) ∧
    ((¬ ∃ row col, on row col ∧ pixel s.fb row col = true) → t.reg vf = s.reg vf) ∧
    (t.redraw = true ↔ s.redraw = true ∨ ∃ row col, on row col) := by
  induction count generalizing s r on with
  | zero =>
    have : ∀ row col, ¬ on row col := by intro row col; rw [hon]; omega
    simp [drawRows, this]
  | succ k ih =>
    simp only [drawRows]
    split
    · rename_i hw
      simp only [Config.screenH] at hw
      have : ∀ row col, ¬ on row col := by intro row col; rw [hon]; omega
      simp [this]
    · rename_i hw
      simp only [Config.screenH, not_le] at hw
      generalize hb : s.readMem (effAddr s r) = b
      generalize hs1 : drawCols b (y0 + r) x0 8 s = s1
      classical
      obtain ⟨on1, hd1⟩ : ∃ on1 : Nat → Prop, ∀ col, on1 col ↔ (x0 + (8-8) ≤ col ∧ col < x0 + 8 ∧
          col < 64 ∧ b.getLsbD (7 - (col - x0)) = true) := ⟨_, fun _ => Iff.rfl⟩
      obtain ⟨on2, hd2⟩ : ∃ on2 : Nat → Nat → Prop, ∀ row col, on2 row col ↔ (y0 + (r+1) ≤ row ∧
          row < y0 + (r+1) + k ∧ row < 32 ∧ x0 ≤ col ∧ col < x0 + 8 ∧ col < 64 ∧
          (s.readMem (effAddr s (row - y0))).getLsbD (7 - (col - x0)) = true) := ⟨_, fun _ _ => Iff.rfl⟩
      obtain ⟨c1, c0, c2, c3, c4⟩ := drawCols_spec b (y0 + r) x0 hw 8 (by omega) s on1 hd1
      rw [hs1] at c0 c1 c2 c3 c4
      have hf := (drawCols_frame b (y0+r) x0 8 s).2
      rw [hs1] at hf
      have hm : ∀ a, s1.readMem a = s.readMem a := fun a => by rw [hf]; rfl
      have he : ∀ a, effAddr s1 a = effAddr s a := fun a => by rw [hf]; rfl
      obtain ⟨i1, i0, i2, i3, i4⟩ := ih (r+1) s1 on2 (fun _ _ => by rw [he, hm, hd2])
      have hiff : ∀ row col, on row col ↔ ((row = y0 + r ∧ on1 col) ∨ on2 row col) := by
        intro row col
        rw [hon, hd1, hd2]
        constructor
        · rintro ⟨h1, h2, h3, h5, h4⟩
          by_cases hr : row = y0 + r
          · left; refine ⟨hr, by omega, ?_⟩; rw [show row - y0 = r by omega, hb] at h4; exact h4
          · right; exact ⟨by omega, by omega, h3, h5, h4⟩
        · rintro (⟨h1, h5, h2⟩ | ⟨h1, h2, h3⟩)
          · refine ⟨by omega, by omega, by omega, by omega, ?_⟩; rw [show row - y0 = r by omega, hb]; exact h2
          · exact ⟨by omega, by omega, h3⟩
      have b1 : ∀ col, on1 col → col < 64 := fun col h => ((hd1 _).1 h).2.2.1
      have b2 : ∀ row col, on2 row col → y0 + r < row ∧ col < 64 :=
          fun row col h => by rw [hd2] at h; exact ⟨by have := h.1; omega, h.2.2.2.2.2.1⟩
      clear hon ih hd1 hd2
      simp only [hiff]
      refine ⟨?_, ?_, ?_, ?_, ?_⟩
      · intro row col hcol
        rw [i1 row col hcol, c1 row col hcol]
        by_cases h1 : row = y0 + r
        · have : ¬ on2 row col := fun h => by have := b2 row col h; omega
          simp [this, ← h1]
        · simp [h1]
      · rcases i0 with h | h
        · exact .inl h
        · rw [h]; exact c0
      · rintro ⟨row, col, h | h, hp⟩
        · obtain ⟨rfl, h⟩ := h
          have := c2 ⟨col, h, hp⟩
          rcases i0 with h | h
          · exact h
          · rw [h]; exact this
        · apply i2
          refine ⟨row, col, h, ?_⟩
          rw [c1 row col (b2 _ _ h).2]
          have : ¬ row = y0 + r := by have := b2 row col h; omega
          simp [this, hp]
      · intro hn
        rw [i3, c3]
        · rintro ⟨col, h, hp⟩; exact hn ⟨_, col, .inl ⟨rfl, h⟩, hp⟩
        · rintro ⟨row, col, h, hp⟩
          rw [c1 row col (b2 _ _ h).2] at hp
          have : ¬ row = y0 + r := by have := b2 row col h; omega
          exact hn ⟨row, col, .inr h, by simpa [this] using hp⟩
      · rw [i4, c4]
        constructor
        · rintro ((h | ⟨col, h⟩) | ⟨row, col, h⟩)
          · exact .inl h
          · exact .inr ⟨_, col, .inl ⟨rfl, h⟩⟩
          · exact .inr ⟨row, col, .inr h⟩
        · rintro (h | ⟨row, col, ⟨rfl, h⟩ | h⟩)
          · exact .inl (.inl h)
          · exact .inl (.inr ⟨col, h⟩)
          · exact .inr ⟨row, col, h⟩

/-- Two pixel buffers with the same pixels are equal. -/
theorem frame_ext {f g : Frame} (h : ∀ row col, row < 32 → col < 64 →
    pixel f row col = pixel g row col) : f = g := by
  apply BitVec.eq_of_getLsbD_eq
  intro i hi
  have hi : i < 64 * 32 := hi
  have := h (i / 64) (i % 64) (by omega) (by omega)
  simp only [pixel, pixelIndex, Config.screenW] at this
  rwa [show i / 64 * 64 + i % 64 = i by omega] at this

/-- All Dxyn can do: raise the fault, or change VF, FB and REDRAW only (R162, R165). -/
theorem drw_cases {x y n s t} (h : exec (.drw x y n) s = .next t) :
  (1 ≤ n.toNat ∧ 0x1000 < s.i.toNat + n.toNat ∧ t = s.setFault (some .memoryOutOfRange)) ∨
  ((∀ r, r ≠ vf → t.reg r = s.reg r) ∧ t = {s with v := t.v, fb := t.fb, redraw := t.redraw} ∧
      (n.toNat = 0 ∨ s.i.toNat + n.toNat ≤ 0x1000)) := by
  rcases checked_cases h with ⟨h1, h2, h3⟩ | ⟨h1, h2⟩
  · exact .inl ⟨h1, h2, h3⟩
  · cases h2
    obtain ⟨a, b⟩ := drawRows_frame (originCol s x) (originRow s y) 0 n.toNat (s.setReg vf 0)
    exact .inr ⟨fun r hr => by rw [a r hr]; simp [hr], by rw [b]; rfl, h1⟩

/-- All Fx65 can do: raise the fault, or change V0 to Vx only (R145). -/
theorem load_cases {x s t} (h : exec (.loadRegs x) s = .next t) :
  (0x1000 < s.i.toNat + (x.val+1) ∧ t = s.setFault (some .memoryOutOfRange)) ∨
  ((∀ r : Reg, x.val < r.val → t.reg r = s.reg r) ∧ t = {s with v := t.v} ∧
      s.i.toNat + (x.val + 1) ≤ 0x1000) := by
  rcases checked_cases h with ⟨h1, h2, h3⟩ | ⟨h1, h2⟩
  · exact .inl ⟨h2, h3⟩
  · cases h2
    obtain ⟨a, b⟩ := loadRegsFrom_spec s (x.val+1)
    refine .inr ⟨fun r hr => by rw [a r]; simp; omega, b, ?_⟩
    have : effAddr s 0 = s.i.toNat := by simp [effAddr]
    omega

end Sys2Proof.Machine
end

