-- ==== Sys2Proof/Laws/PerInstr.lean ====
section
/-!
SUPPORT. Statements made per instruction, about the instruction as syntax: family `EncodesInItsRow`, that the
word of an instruction is accepted by the row of the opcode map that stands for it (30_encoding.md R88).
-/
namespace Sys2Proof.Laws.EncodesInItsRow

/-- The row of the opcode map an instruction belongs to; an unimplemented opcode has none (R88, R89). -/
def rowOf (i : Instr) : Option OpcodeRow :=
  match i with
  | .cls => some ⟨0xFFFF, 0x00E0⟩
  | .ret => some ⟨0xFFFF, 0x00EE⟩
  | .jp _ => some ⟨0xF000, 0x1000⟩
  | .call _ => some ⟨0xF000, 0x2000⟩
  | .seImm _ _ => some ⟨0xF000, 0x3000⟩
  | .sneImm _ _ => some ⟨0xF000, 0x4000⟩
  | .seReg _ _ => some ⟨0xF00F, 0x5000⟩
  | .ldImm _ _ => some ⟨0xF000, 0x6000⟩
  | .addImm _ _ => some ⟨0xF000, 0x7000⟩
  | .ldReg _ _ => some ⟨0xF00F, 0x8000⟩
  | .orReg _ _ => some ⟨0xF00F, 0x8001⟩
  | .andReg _ _ => some ⟨0xF00F, 0x8002⟩
  | .xorReg _ _ => some ⟨0xF00F, 0x8003⟩
  | .addReg _ _ => some ⟨0xF00F, 0x8004⟩
  | .subReg _ _ => some ⟨0xF00F, 0x8005⟩
  | .shr _ _ => some ⟨0xF00F, 0x8006⟩
  | .subnReg _ _ => some ⟨0xF00F, 0x8007⟩
  | .shl _ _ => some ⟨0xF00F, 0x800E⟩
  | .sneReg _ _ => some ⟨0xF00F, 0x9000⟩
  | .ldI _ => some ⟨0xF000, 0xA000⟩
  | .jpV0 _ => some ⟨0xF000, 0xB000⟩
  | .rnd _ _ => some ⟨0xF000, 0xC000⟩
  | .drw _ _ _ => some ⟨0xF000, 0xD000⟩
  | .skp _ => some ⟨0xF0FF, 0xE09E⟩
  | .sknp _ => some ⟨0xF0FF, 0xE0A1⟩
  | .ldVxDt _ => some ⟨0xF0FF, 0xF007⟩
  | .ldVxK _ => some ⟨0xF0FF, 0xF00A⟩
  | .ldDtVx _ => some ⟨0xF0FF, 0xF015⟩
  | .ldStVx _ => some ⟨0xF0FF, 0xF018⟩
  | .addI _ => some ⟨0xF0FF, 0xF01E⟩
  | .ldF _ => some ⟨0xF0FF, 0xF029⟩
  | .ldB _ => some ⟨0xF0FF, 0xF033⟩
  | .storeRegs _ => some ⟨0xF0FF, 0xF055⟩
  | .loadRegs _ => some ⟨0xF0FF, 0xF065⟩
  | .unimpl _ => none

/-- The instruction's word is accepted by its own row, which the map lists. -/
def Statement (i : Instr) : Prop :=
  ∀ r, rowOf i = some r → r ∈ opcodeRows ∧ r.accepts (encode i) = true

/-- The word of format ADDR under the family's mask. -/
theorem addr_mask (f : Nibble) (nnn : Addr12) : encodeAddr f nnn &&& 0xF000 = f ++ (0 : BitVec 12) := by
  unfold encodeAddr
  rw [show (0xF000 : Opcode) = (0xF : BitVec 4) ++ (0 : BitVec 12) by decide, BitVec.and_append]
  congr 1
  · exact BitVec.and_allOnes
  · exact BitVec.and_zero

theorem regImm_mask (f : Nibble) (x : Reg) (nn : Byte) :
    encodeRegImm f x nn &&& 0xF000 = f ++ (0 : BitVec 12) := addr_mask f _

theorem regReg_mask (f : Nibble) (x y : Reg) (n : Nibble) :
    encodeRegReg f x y n &&& 0xF000 = f ++ (0 : BitVec 12) := addr_mask f _

/-- The word of format REG_SUB under the family's mask. -/
theorem regSub_mask (f : Nibble) (x : Reg) (nn : Byte) :
    encodeRegImm f x nn &&& 0xF0FF = f ++ ((0 : BitVec 4) ++ nn : BitVec 12) := by
  unfold encodeRegImm
  rw [show (0xF0FF : Opcode) = (0xF : BitVec 4) ++ ((0 : BitVec 4) ++ (0xFF : BitVec 8) : BitVec 12) by decide,
    BitVec.and_append, BitVec.and_append]
  congr 1
  · exact BitVec.and_allOnes
  · congr 1
    · exact BitVec.and_zero
    · exact BitVec.and_allOnes

/-- The word of format REG_REG under the family's mask. -/
theorem regRegSub_mask (f : Nibble) (x y : Reg) (n : Nibble) :
    encodeRegReg f x y n &&& 0xF00F = f ++ ((0 : BitVec 4) ++ ((0 : BitVec 4) ++ n : BitVec 8) : BitVec 12) := by
  unfold encodeRegReg
  rw [show (0xF00F : Opcode) =
      (0xF : BitVec 4) ++ ((0 : BitVec 4) ++ ((0 : BitVec 4) ++ (0xF : BitVec 4) : BitVec 8) : BitVec 12) by decide,
    BitVec.and_append, BitVec.and_append, BitVec.and_append]
  congr 1
  · exact BitVec.and_allOnes
  · congr 1
    · exact BitVec.and_zero
    · congr 1
      · exact BitVec.and_zero
      · exact BitVec.and_allOnes

/-- A row accepts a word whose masked value is the row's. -/
theorem of_mask {i : Instr} {r : OpcodeRow} (hr : rowOf i = some r) (hm : r ∈ opcodeRows)
    (hw : encode i &&& r.mask = r.want) : Statement i := by
  intro q hq
  rw [hr] at hq
  cases hq
  exact ⟨hm, by simp [OpcodeRow.accepts, hw]⟩

theorem cls : Statement (.cls) :=
  of_mask rfl (by decide) (rfl)
theorem ret : Statement (.ret) :=
  of_mask rfl (by decide) (rfl)
theorem jp (nnn : Addr12) : Statement (.jp nnn) :=
  of_mask rfl (by decide) ((addr_mask 0x1 nnn).trans rfl)
theorem call (nnn : Addr12) : Statement (.call nnn) :=
  of_mask rfl (by decide) ((addr_mask 0x2 nnn).trans rfl)
theorem seImm (x : Reg) (nn : Byte) : Statement (.seImm x nn) :=
  of_mask rfl (by decide) ((regImm_mask 0x3 x nn).trans rfl)
theorem sneImm (x : Reg) (nn : Byte) : Statement (.sneImm x nn) :=
  of_mask rfl (by decide) ((regImm_mask 0x4 x nn).trans rfl)
theorem seReg (x y : Reg) : Statement (.seReg x y) :=
  of_mask rfl (by decide) ((regRegSub_mask 0x5 x y 0x0).trans rfl)
theorem ldImm (x : Reg) (nn : Byte) : Statement (.ldImm x nn) :=
  of_mask rfl (by decide) ((regImm_mask 0x6 x nn).trans rfl)
theorem addImm (x : Reg) (nn : Byte) : Statement (.addImm x nn) :=
  of_mask rfl (by decide) ((regImm_mask 0x7 x nn).trans rfl)
theorem ldReg (x y : Reg) : Statement (.ldReg x y) :=
  of_mask rfl (by decide) ((regRegSub_mask 0x8 x y 0x0).trans rfl)
theorem orReg (x y : Reg) : Statement (.orReg x y) :=
  of_mask rfl (by decide) ((regRegSub_mask 0x8 x y 0x1).trans rfl)
theorem andReg (x y : Reg) : Statement (.andReg x y) :=
  of_mask rfl (by decide) ((regRegSub_mask 0x8 x y 0x2).trans rfl)
theorem xorReg (x y : Reg) : Statement (.xorReg x y) :=
  of_mask rfl (by decide) ((regRegSub_mask 0x8 x y 0x3).trans rfl)
theorem addReg (x y : Reg) : Statement (.addReg x y) :=
  of_mask rfl (by decide) ((regRegSub_mask 0x8 x y 0x4).trans rfl)
theorem subReg (x y : Reg) : Statement (.subReg x y) :=
  of_mask rfl (by decide) ((regRegSub_mask 0x8 x y 0x5).trans rfl)
theorem shr (x y : Reg) : Statement (.shr x y) :=
  of_mask rfl (by decide) ((regRegSub_mask 0x8 x y 0x6).trans rfl)
theorem subnReg (x y : Reg) : Statement (.subnReg x y) :=
  of_mask rfl (by decide) ((regRegSub_mask 0x8 x y 0x7).trans rfl)
theorem shl (x y : Reg) : Statement (.shl x y) :=
  of_mask rfl (by decide) ((regRegSub_mask 0x8 x y 0xE).trans rfl)
theorem sneReg (x y : Reg) : Statement (.sneReg x y) :=
  of_mask rfl (by decide) ((regRegSub_mask 0x9 x y 0x0).trans rfl)
theorem ldI (nnn : Addr12) : Statement (.ldI nnn) :=
  of_mask rfl (by decide) ((addr_mask 0xA nnn).trans rfl)
theorem jpV0 (nnn : Addr12) : Statement (.jpV0 nnn) :=
  of_mask rfl (by decide) ((addr_mask 0xB nnn).trans rfl)
theorem rnd (x : Reg) (nn : Byte) : Statement (.rnd x nn) :=
  of_mask rfl (by decide) ((regImm_mask 0xC x nn).trans rfl)
theorem drw (x y : Reg) (n : Nibble) : Statement (.drw x y n) :=
  of_mask rfl (by decide) ((regReg_mask 0xD x y n).trans rfl)
theorem skp (x : Reg) : Statement (.skp x) :=
  of_mask rfl (by decide) ((regSub_mask 0xE x 0x9E).trans rfl)
theorem sknp (x : Reg) : Statement (.sknp x) :=
  of_mask rfl (by decide) ((regSub_mask 0xE x 0xA1).trans rfl)
theorem ldVxDt (x : Reg) : Statement (.ldVxDt x) :=
  of_mask rfl (by decide) ((regSub_mask 0xF x 0x07).trans rfl)
theorem ldVxK (x : Reg) : Statement (.ldVxK x) :=
  of_mask rfl (by decide) ((regSub_mask 0xF x 0x0A).trans rfl)
theorem ldDtVx (x : Reg) : Statement (.ldDtVx x) :=
  of_mask rfl (by decide) ((regSub_mask 0xF x 0x15).trans rfl)
theorem ldStVx (x : Reg) : Statement (.ldStVx x) :=
  of_mask rfl (by decide) ((regSub_mask 0xF x 0x18).trans rfl)
theorem addI (x : Reg) : Statement (.addI x) :=
  of_mask rfl (by decide) ((regSub_mask 0xF x 0x1E).trans rfl)
theorem ldF (x : Reg) : Statement (.ldF x) :=
  of_mask rfl (by decide) ((regSub_mask 0xF x 0x29).trans rfl)
theorem ldB (x : Reg) : Statement (.ldB x) :=
  of_mask rfl (by decide) ((regSub_mask 0xF x 0x33).trans rfl)
theorem storeRegs (x : Reg) : Statement (.storeRegs x) :=
  of_mask rfl (by decide) ((regSub_mask 0xF x 0x55).trans rfl)
theorem loadRegs (x : Reg) : Statement (.loadRegs x) :=
  of_mask rfl (by decide) ((regSub_mask 0xF x 0x65).trans rfl)
theorem unimpl (op : Opcode) : Statement (.unimpl op) := fun _ h => nomatch h

end Sys2Proof.Laws.EncodesInItsRow
end

