-- ==== Sys2Proof/Laws/Step.lean ====
section
/-!
SUPPORT. What a cycle, an event and a step can do, said once: an invariant of the machine is proved from these
and from the frames of the instructions, without unfolding `step`.
-/
namespace Sys2Proof.Machine

/-- All a cycle can do (R80, R81, R208): nothing on a halted core, raise the fetch fault, or run the decoded
instruction with pc advanced. -/
theorem cycle_cases {s t : State} (h : cycle s = .next t) :
    ((∃ f, s.fault = some f) ∧ t = s) ∨
    (s.fault = none ∧ 0xFFF < s.pc.toNat + 1 ∧ t = s.setFault (some .memoryOutOfRange)) ∨
    (s.fault = none ∧ s.pc.toNat + 1 ≤ 0xFFF ∧ exec (decode (opcodeAt s)) s.advance = .next t) := by
  unfold cycle at h
  cases hf : s.fault with
  | some f => simp only [hf] at h; cases h; exact .inl ⟨⟨f, rfl⟩, rfl⟩
  | none =>
    simp only [hf] at h
    rcases checked_cases h with ⟨-, h1, h2⟩ | ⟨h1, h2⟩
    · exact .inr (.inl ⟨rfl, by omega, h2⟩)
    · exact .inr (.inr ⟨rfl, by omega, h2⟩)

theorem cycle_of_halted {s : State} {f : Fault} (h : s.fault = some f) : cycle s = .next s := by
  simp [cycle, h]

theorem cycle_of_fetchable {s : State} (h : s.fault = none) (hp : s.pc.toNat + 1 ≤ 0xFFF) :
    cycle s = exec (decode (opcodeAt s)) s.advance := by
  simp [cycle, h, runCycle, checked_inside (a := s.pc.toNat) (len := 2) (by omega)]

theorem cycle_of_outside {s : State} (h : s.fault = none) (hp : 0xFFF < s.pc.toNat + 1) :
    cycle s = .next (s.setFault (some .memoryOutOfRange)) := by
  simp [cycle, h, runCycle, checked_outside (a := s.pc.toNat) (len := 2) (by omega) (by omega), raise]

/-- All a step can do (R12, R214): the next event, taken off the schedule. -/
theorem step_cases {s t : State} (h : step s = .next t) :
    (s.nextEvent = .step ∧ cycle s.dropEvent = .next t) ∨
    (s.nextEvent = .tick ∧ t = tick s.dropEvent) ∨
    (s.nextEvent = .ackRedraw ∧ t = ackRedraw s.dropEvent) ∨
    (∃ k, s.nextEvent = .keys k ∧ t = s.dropEvent.setKeys k) := by
  unfold step at h
  cases he : s.nextEvent with
  | step => exact .inl ⟨rfl, by rwa [he] at h⟩
  | tick => rw [he] at h; exact .inr (.inl ⟨rfl, by simpa [runEvent, eq_comm] using h⟩)
  | ackRedraw => rw [he] at h; exact .inr (.inr (.inl ⟨rfl, by simpa [runEvent, eq_comm] using h⟩))
  | keys k => rw [he] at h; exact .inr (.inr (.inr ⟨k, rfl, by simpa [runEvent, eq_comm] using h⟩))

theorem tickDown_toNat (b : Byte) : (tickDown b).toNat = b.toNat - 1 := by
  unfold tickDown
  split
  · rename_i h; simp [h]
  · rename_i h
    have hb := b.isLt
    have : b.toNat ≠ 0 := fun e => h (BitVec.eq_of_toNat_eq (by simpa using e))
    rw [BitVec.toNat_sub]
    simp
    omega

@[simp] theorem dropEvent_of_nil {s : State} (h : s.sched = []) : s.dropEvent = s := by
  obtain ⟨⟩ := s
  simp only at h
  subst h
  rfl

theorem nextEvent_of_nil {s : State} (h : s.sched = []) : s.nextEvent = .step := by
  simp [State.nextEvent, h]

end Sys2Proof.Machine
end

