-- ==== Sys2Proof/Tests/Slice0.lean ====
section
/-!
SUPPORT. The model's own tests: the well-formedness smoke, every constructor's decoding on a word written out
from 30_encoding.md R88, and one step of each instruction; expected values are those of 95_test_vectors.md,
whose ids (T-…) the docstrings name.  Last, a witness for the hypotheses of every statement that has some.
-/
namespace Sys2Proof.Tests
open Sys2Proof.Machine Sys2Proof.Safety

/-! ### Helpers -/

/-- The word `w` stored at `at`, where the next step fetches it. -/
def place (w : Nat) (at' : Word) (s : State) : State := (s.setPc at').withFetchWord 16 w

/-- Registers set one after the other. -/
def regs (l : List (Reg × Byte)) (s : State) : State := l.foldl (fun s p => s.setReg p.1 p.2) s

/-- A state at reset but for the call stack. -/
def stacked (sp : Fin 17) (entry : Word) : State :=
  { State.reset with sp := sp, stack := Vector.replicate 16 entry }

/-- Look at one thing of the state a step answers. -/
def see {α : Type} (f : State → α) (r : Result) : Option α :=
  match r with
  | .next s => some (f s)
  | .fault _ => none
  | .refused _ => none

/-- Step once and look at one thing. -/
def after {α : Type} (f : State → α) (s : State) : Option α := see f (step s)

/-- Pixels of one row from a column on. -/
def pixels (row col count : Nat) (s : State) : List Bool :=
  (List.range count).map fun c => pixel s.fb row (col + c)

/-! ### Well-formedness smoke: the one ill-formed shape, a word that is an instruction given as unimplemented -/

theorem test_wf_refuses_cls_as_unimpl : Instr.wf (.unimpl 0x00E0) = false := by decide
theorem test_wf_refuses_ret_as_unimpl : Instr.wf (.unimpl 0x00EE) = false := by decide
theorem test_wf_refuses_jp_as_unimpl : Instr.wf (.unimpl 0x1234) = false := by decide
theorem test_wf_refuses_shl_as_unimpl : Instr.wf (.unimpl 0x812E) = false := by decide
theorem test_wf_refuses_load_as_unimpl : Instr.wf (.unimpl 0xFF65) = false := by decide
theorem test_wf_accepts_unimpl : Instr.wf (.unimpl 0x5AB1) = true := by decide
theorem test_decode_rejects_short : decodeBytes [0x12] = .error .truncated := by decide

/-! ### Decoding: each row's word, written out from the pattern of R88 -/

theorem test_decode_cls : decode 0x00E0 = .cls := by decide
theorem test_decode_ret : decode 0x00EE = .ret := by decide
theorem test_decode_jp : decode 0x1204 = .jp 0x204 := by decide
theorem test_decode_call : decode 0x2FFF = .call 0xFFF := by decide
theorem test_decode_seImm : decode 0x3F01 = .seImm 0xF 0x01 := by decide
theorem test_decode_sneImm : decode 0x4311 = .sneImm 0x3 0x11 := by decide
theorem test_decode_seReg : decode 0x5120 = .seReg 0x1 0x2 := by decide
theorem test_decode_ldImm : decode 0x6A55 = .ldImm 0xA 0x55 := by decide
theorem test_decode_addImm : decode 0x70FF = .addImm 0x0 0xFF := by decide
theorem test_decode_ldReg : decode 0x8120 = .ldReg 0x1 0x2 := by decide
theorem test_decode_orReg : decode 0x8121 = .orReg 0x1 0x2 := by decide
theorem test_decode_andReg : decode 0x8122 = .andReg 0x1 0x2 := by decide
theorem test_decode_xorReg : decode 0x8123 = .xorReg 0x1 0x2 := by decide
theorem test_decode_addReg : decode 0x8AB4 = .addReg 0xA 0xB := by decide
theorem test_decode_subReg : decode 0x8125 = .subReg 0x1 0x2 := by decide
theorem test_decode_shr : decode 0x8126 = .shr 0x1 0x2 := by decide
theorem test_decode_subnReg : decode 0x81F7 = .subnReg 0x1 0xF := by decide
theorem test_decode_shl : decode 0x812E = .shl 0x1 0x2 := by decide
theorem test_decode_sneReg : decode 0x9120 = .sneReg 0x1 0x2 := by decide
theorem test_decode_ldI : decode 0xA300 = .ldI 0x300 := by decide
theorem test_decode_jpV0 : decode 0xB2FF = .jpV0 0x2FF := by decide
theorem test_decode_rnd : decode 0xC30F = .rnd 0x3 0x0F := by decide
theorem test_decode_drw : decode 0xD125 = .drw 0x1 0x2 0x5 := by decide
theorem test_decode_skp : decode 0xE29E = .skp 0x2 := by decide
theorem test_decode_sknp : decode 0xE2A1 = .sknp 0x2 := by decide
theorem test_decode_ldVxDt : decode 0xF207 = .ldVxDt 0x2 := by decide
theorem test_decode_ldVxK : decode 0xF10A = .ldVxK 0x1 := by decide
theorem test_decode_ldDtVx : decode 0xFB15 = .ldDtVx 0xB := by decide
theorem test_decode_ldStVx : decode 0xF418 = .ldStVx 0x4 := by decide
theorem test_decode_addI : decode 0xF21E = .addI 0x2 := by decide
theorem test_decode_ldF : decode 0xFC29 = .ldF 0xC := by decide
theorem test_decode_ldB : decode 0xF933 = .ldB 0x9 := by decide
theorem test_decode_storeRegs : decode 0xF155 = .storeRegs 0x1 := by decide
theorem test_decode_loadRegs : decode 0xF265 = .loadRegs 0x2 := by decide
theorem test_decode_unimpl : decode 0x5AB1 = .unimpl 0x5AB1 := by decide

/-! ### One step of each instruction -/

/-- T-DS1. -/
theorem test_cls : after (fun s => (s.pc, s.redraw, pixel s.fb 31 63))
    (place 0x00E0 0x200 { State.reset with fb := flipPixel 0 31 63 }) = some (0x0202, true, false) := by decide +kernel
/-- T-CF3. -/
theorem test_ret : after (fun s => (s.pc, s.sp)) (place 0x00EE 0x300 (stacked 16 0x0ABC)) =
    some (0x0ABC, 15) := by decide
/-- T-CF2. -/
theorem test_ret_underflow : after (fun s => (s.pc, s.sp, s.fault)) (place 0x00EE 0x200 State.reset) =
    some (0x0202, 0, some .stackUnderflow) := by decide
/-- T-CF5. -/
theorem test_jp : after (·.pc) (place 0x1FFF 0x200 State.reset) = some 0x0FFF := by decide
/-- T-CF10: the pushed pc lies above the address space. -/
theorem test_call : after (fun s => (s.pc, s.sp, s.stack[3])) (place 0x2ABC 0xFFE (stacked 3 0)) =
    some (0x0ABC, 4, 0x1000) := by decide
/-- T-CF9. -/
theorem test_call_overflow : after (fun s => (s.pc, s.sp, s.fault)) (place 0x2300 0x400 (stacked 16 0)) =
    some (0x0402, 16, some .stackOverflow) := by decide
/-- T-CF24. -/
theorem test_seImm : after (fun s => (s.pc, s.fault)) (place 0x3000 0xFFE State.reset) =
    some (0x1002, none) := by decide
/-- T-CF14, T-CF15. -/
theorem test_sneImm : after (·.pc) (place 0x4311 0x300 (regs [(3, 0x10)] State.reset)) = some 0x0304 ∧
    after (·.pc) (place 0x4310 0x300 (regs [(3, 0x10)] State.reset)) = some 0x0302 := by decide
/-- T-CF16, T-CF17. -/
theorem test_seReg : after (·.pc) (place 0x5120 0x200 (regs [(1, 0x7F), (2, 0x7F)] State.reset)) = some 0x0204 ∧
    after (·.pc) (place 0x5120 0x200 (regs [(1, 0x7F), (2, 0x7E)] State.reset)) = some 0x0202 := by decide
/-- T-CF28. -/
theorem test_ldImm : after (fun s => (s.pc, s.reg 0xA)) (place 0x6A55 0xFFE State.reset) =
    some (0x1000, 0x55) := by decide
/-- T-AL6. -/
theorem test_addImm : after (·.reg 15) (place 0x7F01 0x200 (regs [(15, 0xFF)] State.reset)) = some 0 := by decide
/-- T-AL7. -/
theorem test_ldReg : after (·.reg 1) (place 0x8120 0x200 (regs [(2, 0x33)] State.reset)) = some 0x33 := by decide
/-- T-AL8. -/
theorem test_orReg : after (fun s => (s.reg 1, s.reg 15))
    (place 0x8121 0x200 (regs [(1, 0xF0), (2, 0x0F), (15, 7)] State.reset)) = some (0xFF, 7) := by decide
/-- T-AL9. -/
theorem test_andReg : after (fun s => (s.reg 1, s.reg 15))
    (place 0x8122 0x200 (regs [(1, 0xF0), (2, 0x3C), (15, 7)] State.reset)) = some (0x30, 7) := by decide
/-- T-AL10. -/
theorem test_xorReg : after (fun s => (s.reg 1, s.reg 15))
    (place 0x8123 0x200 (regs [(1, 0xF0), (2, 0x3C), (15, 7)] State.reset)) = some (0xCC, 7) := by decide
/-- T-AL15: a sum of exactly 255 is no carry. -/
theorem test_addReg : after (fun s => (s.reg 1, s.reg 15))
    (place 0x8124 0x200 (regs [(1, 0x80), (2, 0x7F)] State.reset)) = some (0xFF, 0) := by decide
/-- T-AL17. -/
theorem test_addReg_into_vf : after (·.reg 15)
    (place 0x8F14 0x200 (regs [(15, 5), (1, 0xFE)] State.reset)) = some 1 := by decide
/-- T-AL22: equal operands give VF = 0. -/
theorem test_subReg_equal : after (fun s => (s.reg 1, s.reg 15))
    (place 0x8125 0x200 (regs [(1, 7), (2, 7), (15, 1)] State.reset)) = some (0, 0) := by decide
/-- T-AL25. -/
theorem test_subReg_vf_operand : after (fun s => (s.reg 1, s.reg 15))
    (place 0x81F5 0x200 (regs [(1, 5), (15, 3)] State.reset)) = some (4, 1) := by decide
/-- T-AL27, both values of SHIFT_USES_VY. -/
theorem test_shr : after (fun s => (s.reg 1, s.reg 15))
      (place 0x8126 0x200 (regs [(1, 4), (2, 0xFF), (15, 1)] State.reset)) = some (2, 0) ∧
    see (fun s => (s.reg 1, s.reg 15)) (shiftRight true 1 2 (regs [(1, 4), (2, 0xFF)] State.reset)) =
      some (0x7F, 1) := by decide
/-- T-AL32. -/
theorem test_subnReg : after (fun s => (s.reg 1, s.reg 15))
    (place 0x8127 0x200 (regs [(1, 0x0A), (2, 3), (15, 1)] State.reset)) = some (0xF9, 0) := by decide
/-- T-AL35. -/
theorem test_subnReg_vf_operand : after (fun s => (s.reg 1, s.reg 15))
    (place 0x81F7 0x200 (regs [(1, 3), (15, 5)] State.reset)) = some (0xFE, 1) := by decide
/-- T-AL37, both values of SHIFT_USES_VY. -/
theorem test_shl : after (fun s => (s.reg 1, s.reg 15))
      (place 0x812E 0x200 (regs [(1, 0x40), (2, 0xFF), (15, 1)] State.reset)) = some (0x80, 0) ∧
    see (fun s => (s.reg 1, s.reg 15)) (shiftLeft true 1 2 (regs [(1, 0x40), (2, 0xFF)] State.reset)) =
      some (0xFE, 1) := by decide
/-- T-AL39. -/
theorem test_shl_vf : after (·.reg 15) (place 0x8F0E 0x200 (regs [(15, 0x81)] State.reset)) = some 2 := by decide
/-- T-CF19, T-CF20. -/
theorem test_sneReg : after (·.pc) (place 0x9120 0x200 (regs [(1, 1), (2, 2)] State.reset)) = some 0x0204 ∧
    after (·.pc) (place 0x9120 0x200 (regs [(1, 2), (2, 2)] State.reset)) = some 0x0202 := by decide
/-- T-IX2. -/
theorem test_ldI : after (·.i) (place 0xAFFF 0x200 State.reset) = some 0x0FFF := by decide
/-- T-CF22. -/
theorem test_jpV0 : after (fun s => (s.pc, s.fault)) (place 0xBFFF 0x200 (regs [(0, 0xFF)] State.reset)) =
    some (0x10FE, none) := by decide
/-- T-AL41, with the byte drawn given. -/
theorem test_rnd : (randomMasked 0xA7 3 0x0F State.reset).reg 3 = 0x07 := by decide
/-- T-DS5: clipped at the right edge. -/
theorem test_drw_clips : after (fun s => (pixel s.fb 0 63, pixel s.fb 0 0, pixel s.fb 1 0, s.redraw, s.reg 15))
    (place 0xD011 0x200 (regs [(0, 0x3F)] ((State.reset.setI 0x300).writeMem 0x300 0xFF))) =
    some (true, false, false, true, 0) := by decide +kernel
/-- T-DS10: a partial overlap. -/
theorem test_drw_collides : after (fun s => (pixels 2 3 7 s, s.reg 15))
    (place 0xD011 0x200 (regs [(0, 4), (1, 2)] ({ (State.reset.setI 0x300).writeMem 0x300 0xF0 with
      fb := flipPixel (flipPixel 0 2 7) 2 8 }))) =
    some ([false, true, true, true, false, true, false], 1) := by decide +kernel
/-- T-KT4: only the low nibble of V[x] names the key. -/
theorem test_skp : after (·.pc) (place 0xE29E 0x200 (regs [(2, 0x1A)] { State.reset with keys := 0x0400 })) =
    some 0x0204 := by decide
/-- T-KT7. -/
theorem test_sknp : after (·.pc) (place 0xE2A1 0x200 (regs [(2, 0xF0)] { State.reset with keys := 0x0001 })) =
    some 0x0202 := by decide
/-- T-KT13. -/
theorem test_ldVxDt : after (fun s => (s.reg 2, s.dt)) (place 0xF207 0x200 { State.reset with dt := 1 }) =
    some (1, 1) := by decide
/-- T-KT8: with no key held pc is back on the instruction. -/
theorem test_ldVxK_waits : after (fun s => (s.pc, s.reg 1)) (place 0xF10A 0x204 (regs [(1, 0x33)] State.reset)) =
    some (0x0204, 0x33) := by decide
/-- T-KT11: key 0 is a key. -/
theorem test_ldVxK : after (fun s => (s.pc, s.reg 1))
    (place 0xF10A 0x204 (regs [(1, 0x33)] { State.reset with keys := 0x0001 })) = some (0x0206, 0) := by decide
/-- T-KT15. -/
theorem test_ldDtVx : after (fun s => (s.dt, s.st)) (place 0xF015 0x200 (regs [(0, 3)] State.reset)) =
    some (3, 0) := by decide
/-- T-KT17. -/
theorem test_ldStVx : after (fun s => (s.dt, s.st)) (place 0xF418 0x200 (regs [(4, 0x3C)] State.reset)) =
    some (0, 60) := by decide
/-- T-IX6. -/
theorem test_addI_overflow : after (fun s => (s.i, s.reg 15))
    (place 0xF21E 0x200 (regs [(2, 0xFF)] (State.reset.setI 0x0FFF))) = some (0x00FE, 1) := by decide
/-- T-IX3, both values of FX1E_CLEAR_VF. -/
theorem test_addI : after (fun s => (s.i, s.reg 15))
      (place 0xF21E 0x200 (regs [(2, 0x10), (15, 7)] (State.reset.setI 0x0300))) = some (0x0310, 7) ∧
    (addIndex true 2 (regs [(2, 0x10), (15, 7)] (State.reset.setI 0x0300))).reg 15 = 0 := by decide
/-- T-IX10. -/
theorem test_ldF : after (·.i) (place 0xF029 0x200 (regs [(0, 0x1A)] State.reset)) = some 0x0082 := by decide
/-- T-IX13. -/
theorem test_ldB : after (fun s => (s.readMem 0x300, s.readMem 0x301, s.readMem 0x302))
    (place 0xF333 0x200 (regs [(3, 0x9C)] (State.reset.setI 0x0300))) = some (1, 5, 6) := by decide
/-- T-IX17. -/
theorem test_ldB_outside : after (fun s => (s.pc, s.fault, s.readMem 0xFFE))
    (place 0xF333 0x200 (regs [(3, 0x64)] (State.reset.setI 0x0FFE))) =
    some (0x0202, some .memoryOutOfRange, 0) := by decide
/-- T-IX18. -/
theorem test_storeRegs : after (fun s => (s.readMem 0x400, s.readMem 0x401, s.readMem 0x402, s.i))
    (place 0xF155 0x200 (regs [(0, 0x11), (1, 0x22), (2, 0x33)] (State.reset.setI 0x0400))) =
    some (0x11, 0x22, 0, 0x0400) := by decide
/-- T-IX21. -/
theorem test_storeRegs_outside : after (fun s => (s.fault, s.readMem 0xFF1))
    (place 0xFF55 0x200 (regs [(0, 1), (7, 7), (15, 15)] (State.reset.setI 0x0FF1))) =
    some (some .memoryOutOfRange, 0) := by decide
/-- T-IX26: a load of its own opcode bytes. -/
theorem test_loadRegs : after (fun s => (s.reg 0, s.reg 1, s.i))
    (place 0xF165 0x200 (regs [(0, 0xAA), (1, 0xBB)] (State.reset.setI 0x0200))) =
    some (0xF1, 0x65, 0x0200) := by decide
/-- T-IX24. -/
theorem test_loadRegs_outside : after (fun s => (s.fault, s.reg 0))
    (place 0xF165 0x200 ((State.reset.setI 0x0FFF).writeMem 0xFFF 0x77)) =
    some (some .memoryOutOfRange, 0) := by decide
/-- T-UN4. -/
theorem test_unimpl : after (fun s => (s.pc, s.fault)) (place 0x01E0 0x400 State.reset) =
    some (0x0402, none) := by decide

/-! ### Fetch, the other events, reset -/

/-- T-CF25: a fetch fault leaves pc. -/
theorem test_fetch_outside : after (fun s => (s.pc, s.fault)) (State.reset.setPc 0x0FFF) =
    some (0x0FFF, some .memoryOutOfRange) := by decide
/-- T-TK7: a tick acts on a halted core. -/
theorem test_tick_halted : after (fun s => (s.dt, s.st, s.fault))
    { State.reset with dt := 2, fault := some .stackOverflow, sched := [.tick] } =
    some (1, 0, some .stackOverflow) := by decide
/-- R33: the first and the last glyph byte, and the byte after the font. -/
theorem test_font : (State.reset.readMem 0x050, State.reset.readMem 0x09F, State.reset.readMem 0x0A0) =
    (0xF0, 0x80, 0x00) := by decide
/-- T-LD3: one byte too many. -/
theorem test_rom_too_large : loadRom (List.replicate 3585 0xAB) State.reset = .romTooLarge := by
  have h : (List.replicate 3585 (0xAB : Byte)).length = 3585 := List.length_replicate
  simp only [loadRom, h]
  rfl

/-! ### Witnesses: for each statement with hypotheses, concrete inputs that meet all of them together, each
clause at a boundary of its range -/

/-- A running state about to fetch the word `w` at 0x200. -/
def running (w : Nat) : State := place w 0x200 State.reset

theorem witness_DecodeInvertsEncode :
    Instr.wf (.drw 15 15 15) = true ∧ Instr.wf (.unimpl 0xFFFF) = true := by decide

theorem witness_StepRunsDecodedInstruction : ∃ (s : State) (i : Instr), Running s ∧ s.nextEvent = .step ∧
    Fetchable s ∧ decodeBytes [s.readMem s.pc.toNat, s.readMem (s.pc.toNat + 1)] = .ok (i, []) :=
  ⟨place 0x6A55 0xFFE State.reset, .ldImm 0xA 0x55, rfl, rfl, by unfold Fetchable; decide, by decide⟩

theorem witness_FetchChecksThenAdvances :
    (∃ s : State, Running s ∧ s.nextEvent = .step ∧ 0xFFF < s.pc.toNat + 1) ∧
    (∃ s : State, Running s ∧ s.nextEvent = .step ∧ s.pc.toNat + 1 ≤ 0xFFF) :=
  ⟨⟨State.reset.setPc 0xFFF, rfl, rfl, by decide⟩, ⟨State.reset.setPc 0xFFE, rfl, rfl, by decide⟩⟩

theorem witness_HaltedCycleDoesNothing : ∃ (s : State) (f : Fault), s.fault = some f ∧ s.nextEvent = .step :=
  ⟨State.reset.setFault (some .stackOverflow), _, rfl, rfl⟩

theorem witness_HaltedStateIsSticky : ∃ (s : State) (f : Fault), s.fault = some f :=
  ⟨State.reset.setFault (some .memoryOutOfRange), _, rfl⟩

theorem witness_JumpSetsPc :
    (∃ (nnn : Addr12) (s : State), Running s ∧ s.sched = [] ∧ Fetchable s ∧
      decode (opcodeAt s) = .jp nnn ∧ nnn.toNat = s.pc.toNat) ∧
    (∃ s t : State, Running s ∧ s.sched = [] ∧ exec (.jp 0xFFF) s = .next t) :=
  ⟨⟨0x200, running 0x1200, rfl, rfl, by unfold Fetchable; decide, by decide, by decide⟩,
   ⟨State.reset, _, rfl, rfl, rfl⟩⟩

theorem witness_CallPushesAndJumps :
    (stacked 15 0).sp.val < 16 ∧ (stacked 16 0).sp.val = 16 := by decide

theorem witness_ReturnPopsIntoPc :
    (∃ (s : State) (k : Fin 16), s.sp.val = k.val + 1 ∧ Running s ∧ s.sched = [] ∧
      0x0FFF ≤ (s.stack[k]).toNat) ∧
    (∃ k : Fin 16, (stacked 16 0).sp.val = k.val + 1) ∧ (stacked 0 0).sp.val = 0 :=
  ⟨⟨stacked 1 0x0FFF, 0, by decide, rfl, rfl, by decide⟩, ⟨15, by decide⟩, by decide⟩

theorem witness_CallReturnRoundTrip : ∃ (nnn : Addr12) (s t u : State) (n : Nat), s.sp.val < 16 ∧
    exec (.call nnn) s = .next t ∧ Host.Core.run Sys2Proof.core n t = .next u ∧
    (∀ (m : Nat) (x : State), m ≤ n → Host.Core.run Sys2Proof.core m t = .next x → s.sp.val < x.sp.val) ∧
    u.sp.val = s.sp.val + 1 := by
  refine ⟨0x300, stacked 15 0, _, _, 1, by decide, rfl, rfl, ?_, by decide⟩
  intro m x hm hx
  interval_cases m <;> cases hx <;> decide

theorem witness_UnimplementedOnlyAdvances : ∃ s : State, Running s ∧ s.sched = [] ∧ Fetchable s ∧
    isInstruction (opcodeAt s) = false :=
  ⟨running 0x01E0, rfl, rfl, by unfold Fetchable; decide, by decide⟩

theorem witness_AddWritesCarryLast : (14 : Reg) ≠ 15 := by decide

theorem witness_SubtractWritesFlagFirst : (0 : Reg) ≠ 15 := by decide

theorem witness_ShiftsWriteFlagFirst (s : State) :
    ∃ (x y : Reg) (usesVy : Bool) (a : Byte), a = (if usesVy then s.reg y else s.reg x) ∧ x ≠ 15 :=
  ⟨14, 15, true, _, rfl, by decide⟩

theorem witness_RandomIsMasked : ∃ (x : Reg) (nn : Byte) (s t : State) (k : Nat),
    exec (.rnd x nn) s = .next t ∧ nn.getLsbD k = false :=
  ⟨3, 0x7F, State.reset, _, 7, rfl, by decide⟩

theorem witness_OnlyDestinationsChange : ∃ (i : Instr) (s t : State) (r : Reg),
    exec i s = .next t ∧ r ∉ destinations i :=
  ⟨.loadRegs 14, State.reset, _, 15, rfl, by decide⟩

theorem witness_BcdStoresDigits :
    (∃ s : State, Memory.wf s.mem ∧ s.i.toNat + 2 ≤ 0xFFF) ∧
    (∃ s : State, Memory.wf s.mem ∧ 0xFFF < s.i.toNat + 2) :=
  ⟨⟨State.reset.setI 0xFFD, by decide, by decide⟩, ⟨State.reset.setI 0xFFE, by decide, by decide⟩⟩

theorem witness_StoreRegistersWritesRange :
    (∃ (x : Reg) (s : State), Memory.wf s.mem ∧ s.i.toNat + x.val ≤ 0xFFF) ∧
    (∃ (x : Reg) (s : State), Memory.wf s.mem ∧ 0xFFF < s.i.toNat + x.val) :=
  ⟨⟨15, State.reset.setI 0xFF0, by decide, by decide⟩, ⟨15, State.reset.setI 0xFF1, by decide, by decide⟩⟩

theorem witness_LoadRegistersReadsRange :
    (∃ (x : Reg) (s : State), s.i.toNat + x.val ≤ 0xFFF) ∧
    (∃ (x : Reg) (s : State), 0xFFF < s.i.toNat + x.val) :=
  ⟨⟨0, State.reset.setI 0xFFF, by decide⟩, ⟨1, State.reset.setI 0xFFF, by decide⟩⟩

theorem witness_StoreThenLoadRestores : ∃ (x : Reg) (s t u : State), Memory.wf s.mem ∧
    s.i.toNat + x.val ≤ 0xFFF ∧ exec (.storeRegs x) s = .next t ∧ SameMemory t u ∧ u.i = s.i ∧
    u.reg 0 ≠ s.reg 0 :=
  ⟨1, regs [(0, 0x11), (1, 0x22)] (State.reset.setI 0xFFE), _, _, by decide, by decide, rfl,
    fun a => (State.setReg_readMem _ 0 0x99 a), rfl, by decide⟩

theorem witness_StoredBytesAreFetched : ∃ (x a b : Reg) (s t : State), Memory.wf s.mem ∧
    s.i.toNat + x.val ≤ 0xFFF ∧ b.val = a.val + 1 ∧ b.val ≤ x.val ∧ exec (.storeRegs x) s = .next t ∧
    t.pc.toNat = effAddr s a.val :=
  ⟨1, 0, 1, (State.reset.setI 0xFFE).setPc 0xFFE, _, by decide, by decide, rfl, by decide, rfl, by decide⟩

theorem witness_ClearScreenClearsAll : ∃ row col : Nat, row < Config.screenH ∧ col < Config.screenW :=
  ⟨31, 63, by decide, by decide⟩

theorem witness_DrawXorsClippedSprite :
    (∃ (n : Nibble) (s : State), s.i.toNat + n.toNat ≤ 0x1000 ∧ 1 ≤ n.toNat) ∧
    (∃ n : Nibble, n.toNat = 0) ∧
    (∃ (n : Nibble) (s : State), 1 ≤ n.toNat ∧ 0xFFF < s.i.toNat + n.toNat - 1) ∧
    SpriteOn (State.reset.setI 0x050) 0 0 5 0 0 ∧ ¬ SpriteOn (State.reset.setI 0x050) 0 0 5 0 4 :=
  ⟨⟨15, State.reset.setI 0xFF1, by decide, by decide⟩, ⟨0, rfl⟩,
   ⟨2, State.reset.setI 0xFFF, by decide, by decide⟩, by unfold SpriteOn; decide, by unfold SpriteOn; decide⟩

theorem witness_DrawTwiceRestoresScreen : ∃ (x y : Reg) (n : Nibble) (s t : State), x ≠ 15 ∧ y ≠ 15 ∧
    (s.i.toNat + n.toNat ≤ 0x1000 ∨ n.toNat = 0) ∧ exec (.drw x y n) s = .next t :=
  ⟨14, 0, 5, State.reset.setI 0x050, _, by decide, by decide, by decide, rfl⟩

theorem witness_KeyWaitTakesHeldKey :
    State.reset.keys = 0 ∧ (State.reset.setKeys 0x8001).keys ≠ 0 := by decide

theorem witness_KeyWaitSpins : ∃ (x : Reg) (s : State), Running s ∧ s.sched = [] ∧ Fetchable s ∧
    decode (opcodeAt s) = .ldVxK x ∧ s.keys = 0 :=
  ⟨15, place 0xFF0A 0xFFE State.reset, rfl, rfl, by unfold Fetchable; decide, by decide, rfl⟩

theorem witness_ScheduledEventsAct :
    (∃ (s : State) (es : List RunEvent), s.sched = .tick :: es) ∧
    (∃ (s : State) (es : List RunEvent), s.sched = .ackRedraw :: es) ∧
    (∃ (s : State) (es : List RunEvent) (k : BitVec 16), s.sched = .keys k :: es) :=
  ⟨⟨State.reset.setSched [.tick], [], rfl⟩, ⟨State.reset.setSched [.ackRedraw, .step], _, rfl⟩,
   ⟨State.reset.setSched [.keys 0xFFFF], [], 0xFFFF, rfl⟩⟩

theorem witness_DelayTimerOnlyFallsOrIsSet : ∃ s t : State, step s = .next t ∧ s.dt.toNat < t.dt.toNat :=
  ⟨place 0xF015 0x200 (regs [(0, 0xFF)] { State.reset with dt := 0xFE }), _, rfl, by decide⟩

theorem witness_FaultsAriseExactlyWhen :
    (∃ s t : State, Running s ∧ exec (.call 0) s = .next t ∧ s.sp.val = 16 ∧ t.fault = some .stackOverflow) ∧
    (∃ s t : State, Running s ∧ exec .ret s = .next t ∧ s.sp.val = 0 ∧ t.fault = some .stackUnderflow) ∧
    (∃ (i : Instr) (s t : State), Running s ∧ exec i s = .next t ∧ OutOfRange i s ∧
      t.fault = some .memoryOutOfRange) :=
  ⟨⟨stacked 16 0, _, rfl, rfl, rfl, rfl⟩, ⟨stacked 0 0, _, rfl, rfl, rfl, rfl⟩,
   ⟨.drw 0 0 2, State.reset.setI 0xFFF, _, rfl, rfl, .inl ⟨0, 0, 2, rfl, by decide, by decide⟩, rfl⟩⟩

theorem witness_FaultsArePrecise :
    (∃ (s t : State) (f : Fault), Running s ∧ s.nextEvent = .step ∧ step s = .next t ∧ t.fault = some f ∧
      s.pc.toNat + 1 ≤ 0xFFF) ∧
    (∃ (s t : State) (f : Fault), Running s ∧ s.nextEvent = .step ∧ step s = .next t ∧ t.fault = some f ∧
      0xFFF < s.pc.toNat + 1) :=
  ⟨⟨place 0x00EE 0xFFE State.reset, _, .stackUnderflow, rfl, rfl, rfl, rfl, by decide⟩,
   ⟨State.reset.setPc 0x0FFF, _, .memoryOutOfRange, rfl, rfl, rfl, rfl, by decide⟩⟩

theorem witness_EveryWriterIsListed :
    (∃ t, exec (.ldImm 15 1) State.reset = .next t ∧ t.reg 15 ≠ State.reset.reg 15 ∧
      15 ∈ destinations (.ldImm 15 1)) ∧
    (∃ t, exec (.ldVxK 0) State.reset = .next t ∧ t.pc ≠ State.reset.pc) ∧
    (∃ t, exec .ret State.reset = .next t ∧ t.fault ≠ State.reset.fault) ∧
    (∃ t, exec (.ldI 1) State.reset = .next t ∧ t.i ≠ State.reset.i) ∧
    (∃ t, exec (.call 1) State.reset = .next t ∧ t.sp ≠ State.reset.sp ∧ t.stack ≠ State.reset.stack) ∧
    (∃ s t : State, exec (.ldDtVx 0) s = .next t ∧ t.dt ≠ s.dt) ∧
    (∃ s t : State, exec (.ldStVx 0) s = .next t ∧ t.st ≠ s.st) ∧
    (∃ s t : State, exec .cls s = .next t ∧ t.fb ≠ s.fb ∧ t.redraw ≠ s.redraw) ∧
    (∃ (s t : State) (a : Nat), exec (.storeRegs 0) s = .next t ∧ t.readMem a ≠ s.readMem a) ∧
    (∃ t, exec (.rnd 0 1) State.reset = .next t ∧ t.draws ≠ State.reset.draws) :=
  ⟨⟨_, rfl, by decide, by decide⟩, ⟨_, rfl, by decide⟩, ⟨_, rfl, by decide⟩,
   ⟨_, rfl, by decide⟩, ⟨_, rfl, by decide, by decide⟩,
   ⟨regs [(0, 1)] State.reset, _, rfl, by decide⟩, ⟨regs [(0, 1)] State.reset, _, rfl, by decide⟩,
   ⟨State.reset.setFb (BitVec.allOnes _), _, rfl, by decide +kernel, by decide⟩,
   ⟨State.reset.setI 0x50, _, 0x50, rfl, by decide⟩, ⟨_, rfl, by decide⟩⟩

theorem witness_StepKeepsInvariant : ∃ s t : State, MachineInv s ∧ step s = .next t :=
  ⟨State.reset, _, ⟨by decide, by decide, fun k h => absurd h (Nat.not_lt_zero _), by decide⟩, rfl⟩

theorem witness_LiveStackEntriesStay : ∃ (s t : State) (k : Fin 16), step s = .next t ∧ k.val < s.sp.val :=
  ⟨place 0x2300 0x200 (stacked 15 0x206), _, 14, rfl, by decide⟩

theorem witness_DeadStackEntriesUnseen : ∃ (s t : State) (other : Vector Word 16),
    (∀ k : Fin 16, k.val < s.sp.val → other[k] = s.stack[k]) ∧ step s = .next t ∧ other ≠ s.stack :=
  ⟨place 0x00EE 0x200 (stacked 15 0x206), _, (stacked 15 0x206).stack.set 15 1, by decide, rfl, by decide⟩

theorem witness_RedrawAndSoundInfluenceNothing : ∃ s t : State, step s = .next t := ⟨State.reset, _, rfl⟩

theorem witness_ResetMemoryImage : 79 < font.length ∧ (0x04F < 0x050 ∨ 0x09F < 0x04F) ∧
    (0x0A0 < 0x050 ∨ 0x09F < 0x0A0) := by decide

theorem witness_LoadRomCopiesOrRefuses : Memory.wf State.reset.mem ∧
    (∃ bytes : List Byte, bytes.length ≤ 3584 ∧ bytes ≠ []) ∧ (∃ bytes : List Byte, 3584 < bytes.length) :=
  ⟨by decide, ⟨List.replicate 3584 0xAB, by rw [List.length_replicate],
    List.ne_nil_of_length_pos (by rw [List.length_replicate]; decide)⟩,
   ⟨List.replicate 3585 0xAB, by rw [List.length_replicate]; decide⟩⟩

theorem witness_NoLoadOnceRunning :
    Event.reset ∉ ([.run .step, .run .tick] : List Event) ∧ (∀ k, RunEvent.step ≠ .keys k) ∧
    (∃ bytes : List Byte, bytes.length ≤ 3584 ∧ bytes ≠ []) ∧
    (∃ tooLong : List (List Byte), (∀ b ∈ tooLong, 3584 < b.length) ∧ tooLong ≠ []) := by
  refine ⟨by decide, fun k => by simp, witness_LoadRomCopiesOrRefuses.2.1, ?_⟩
  obtain ⟨b, hb⟩ := witness_LoadRomCopiesOrRefuses.2.2
  exact ⟨[b], by simpa using hb, by simp⟩

/-- Log entry 26: a failed load after the successful one is legal, and a second successful one is not. -/
theorem test_failed_load_after_load :
    legalFrom .loaded [.loadRom (List.replicate 3585 0), .run .step] = true ∧
    legalFrom .loaded [.loadRom [0x12, 0x00], .run .step] = false := by
  have h : (List.replicate 3585 (0 : Byte)).length = 3585 := List.length_replicate
  refine ⟨?_, by decide⟩
  simp only [legalFrom, Phase.after, h]
  rfl

end Sys2Proof.Tests
end

section
/-!
PROOFS. The state family (10_state.md).  What an instruction can do is said once (`Effect`, `exec_effect`): the
writers' table, the invariant and the live stack entries follow from it.  That dead stack entries, REDRAW and ST
influence nothing is a simulation between two runs (`Alike`, `Alike.step`).
-/
namespace Sys2Proof.Proofs
open Sys2Proof.Machine Sys2Proof.Safety

/-! ### What an instruction can do -/

theorem sameRegsBut_refl (rs : List Reg) (s : State) : SameRegsBut rs s s := fun _ _ => rfl

/-- A register of the list may be written. -/
theorem sameRegsBut_setReg {rs : List Reg} {s u : State} (h : SameRegsBut rs s u) {x : Reg} (hx : x ∈ rs)
    (b : Byte) : SameRegsBut rs s (u.setReg x b) := by
  intro r hr
  have hne : r ≠ x := fun e => hr (e ▸ hx)
  rw [State.reg_setReg_ne u b hne, h r hr]

theorem mem_of_reg_ne {rs : List Reg} {s t : State} (h : SameRegsBut rs s t) {r : Reg} (hr : t.reg r ≠ s.reg r) :
    r ∈ rs :=
  not_imp_comm.1 (h r) hr

/-- The instructions listed as writers of pc (10_state.md section 1). -/
abbrev MovesPc (i : Instr) : Prop :=
  i = .ret ∨ (∃ nnn, i = .jp nnn ∨ i = .call nnn ∨ i = .jpV0 nnn) ∨
  (∃ x nn, i = .seImm x nn ∨ i = .sneImm x nn) ∨ (∃ x y, i = .seReg x y ∨ i = .sneReg x y) ∨
  ∃ x, i = .skp x ∨ i = .sknp x ∨ i = .ldVxK x

/-- The instructions that can raise a fault (R201 to R203). -/
abbrev CanFault (i : Instr) : Prop :=
  (∃ nnn, i = .call nnn) ∨ i = .ret ∨ (∃ x y n, i = .drw x y n) ∨
  ∃ x, i = .ldB x ∨ i = .storeRegs x ∨ i = .loadRegs x

/-- Everything an instruction can do to the state, by kind: which fields it writes, which instructions do so,
and the bounds of the values it gives pc and I. -/
inductive Effect (i : Instr) (s : State) : State → Prop
  | unchanged : Effect i s s
  | fault (f : Fault) (hi : CanFault i) : Effect i s (s.setFault (some f))
  | registers (v : Vector Byte 16) (hv : SameRegsBut (destinations i) s { s with v := v }) :
      Effect i s { s with v := v }
  | control (w : Word) (hi : MovesPc i) (hw : w = s.pc + 2 ∨ w = s.pc - 2 ∨ w.toNat ≤ 0x10FE) :
      Effect i s (s.setPc w)
  | call (nnn : Addr12) (h : s.sp.val < 16) (hi : i = .call nnn) :
      Effect i s ((s.push s.pc h).setPc (addrWord nnn))
  | ret (h : 0 < s.sp.val) (hi : i = .ret) : Effect i s ((s.setPc (s.top h)).pop)
  | index (v : Vector Byte 16) (w : Word) (hi : (∃ nnn, i = .ldI nnn) ∨ (∃ x, i = .addI x) ∨ ∃ x, i = .ldF x)
      (hv : SameRegsBut (destinations i) s { s with v := v }) (hw : w.toNat ≤ 0x0FFF) :
      Effect i s { s with v := v, i := w }
  | delay (x : Reg) (hi : i = .ldDtVx x) : Effect i s (s.setDt (s.reg x))
  | sound (x : Reg) (hi : i = .ldStVx x) : Effect i s (s.setSt (s.reg x))
  | screen (v : Vector Byte 16) (f : Frame) (b : Bool) (hi : i = .cls ∨ ∃ x y n, i = .drw x y n)
      (hv : SameRegsBut (destinations i) s { s with v := v }) (hb : s.redraw = true → b = true) :
      Effect i s { s with v := v, fb := f, redraw := b }
  | store (a : Nat) (bytes : List Byte) (hi : (∃ x, i = .ldB x) ∨ ∃ x, i = .storeRegs x) :
      Effect i s (s.writeMemBytes a bytes)
  | random (v : Vector Byte 16) (hi : ∃ x nn, i = .rnd x nn)
      (hv : SameRegsBut (destinations i) s { s with v := v }) : Effect i s { s with v := v, draws := s.draws + 1 }

theorem Effect.setReg {i : Instr} (s : State) {x : Reg} (hx : x ∈ destinations i) (b : Byte) :
    Effect i s (s.setReg x b) :=
  .registers _ (sameRegsBut_setReg (sameRegsBut_refl _ s) hx b)

theorem Effect.setReg_setReg {i : Instr} (s : State) {x y : Reg} (hx : x ∈ destinations i)
    (hy : y ∈ destinations i) (b c : Byte) : Effect i s ((s.setReg x b).setReg y c) :=
  .registers _ (sameRegsBut_setReg (sameRegsBut_setReg (sameRegsBut_refl _ s) hx b) hy c)

theorem Effect.skipIf {i : Instr} {c : Bool} {s t : State} (hi : MovesPc i) (h : skipIf c s = .next t) :
    Effect i s t := by
  cases h
  cases c with
  | false => exact .unchanged
  | true => exact .control _ hi (.inl rfl)

/-- A rule behind a range check raises the fault or does what the rule does. -/
theorem Effect.checked {i : Instr} {a len : Nat} {s t u : State} (hi : CanFault i) (hu : Effect i s u)
    (h : checked a len s (.next u) = .next t) : Effect i s t := by
  rcases checked_cases h with ⟨-, -, rfl⟩ | ⟨-, h⟩
  · exact .fault _ hi
  · cases h; exact hu

/-- The target of Bnnn is at most 0xFFF + 0xFF: the bound of R23. -/
theorem offsetTarget_le (nnn : Addr12) (s : State) : (offsetTarget nnn s).toNat ≤ 0x10FE := by
  have hn := nnn.isLt
  have hb := (s.reg 0).isLt
  rw [offsetTarget, BitVec.toNat_add, addrWord_toNat, byteWord_toNat]
  omega

theorem glyphAddr_le (b : Byte) : (glyphAddr b).toNat ≤ 0x0FFF := by
  have hn := (lowNibble b).isLt
  rw [glyphAddr, BitVec.toNat_ofNat]
  refine (Nat.mod_le _ _).trans ?_
  simp only [Config.fontBase, Config.glyphStride]
  omega

/-- The sum of Fx1E is masked to 12 bits: the bound of R25. -/
theorem maskedIndex_le (n : Nat) : (BitVec.ofNat 16 (n &&& 0x0FFF)).toNat ≤ 0x0FFF := by
  have h : n &&& 0x0FFF ≤ 0x0FFF := Nat.and_le_right
  rw [BitVec.toNat_ofNat]
  omega

/-- A draw never clears REDRAW (R164). -/
theorem drawRows_redraw (x0 y0 r count : Nat) {s : State} (h : s.redraw = true) :
    (drawRows x0 y0 r count s).redraw = true := by
  classical
  obtain ⟨-, -, -, -, hredraw⟩ := drawRows_spec x0 y0 r count s _ fun _ _ => Iff.rfl
  exact hredraw.2 (.inl h)

theorem drw_effect {x y : Reg} {n : Nibble} {s t : State} (h : exec (.drw x y n) s = .next t) :
    Effect (.drw x y n) s t := by
  refine .checked (by simp [CanFault]) ?_ h
  obtain ⟨hregs, hframe⟩ := drawRows_frame (originCol s x) (originRow s y) 0 n.toNat (s.setReg vf 0)
  rw [hframe]
  refine .screen _ _ _ (.inr ⟨x, y, n, rfl⟩) (fun r hr => ?_) fun hr => drawRows_redraw _ _ _ _ hr
  have hne : r ≠ vf := by simpa [destinations] using hr
  exact (hregs r hne).trans (State.reg_setReg_ne s 0 hne)

theorem loadRegs_effect {x : Reg} {s t : State} (h : exec (.loadRegs x) s = .next t) :
    Effect (.loadRegs x) s t := by
  refine .checked (by simp [CanFault]) ?_ h
  obtain ⟨hregs, hframe⟩ := loadRegsFrom_spec s (x.val + 1)
  rw [hframe]
  refine .registers _ fun r hr => ?_
  have hlt : ¬ r.val < x.val + 1 := by simpa [destinations, Nat.lt_succ_iff] using hr
  exact (hregs r).trans (if_neg hlt)

theorem addI_effect (x : Reg) (s : State) : Effect (.addI x) s (addIndex fx1eClearVf x s) := by
  have hv : vf ∈ destinations (.addI x) := by simp [destinations]
  have hs := sameRegsBut_refl (destinations (.addI x)) s
  have hi : (∃ nnn, Instr.addI x = .ldI nnn) ∨ (∃ y, Instr.addI x = .addI y) ∨ ∃ y, Instr.addI x = .ldF y := by
    simp
  unfold addIndex
  split
  · exact .index _ _ hi (sameRegsBut_setReg hs hv 1) (maskedIndex_le _)
  · exact .index _ _ hi hs (maskedIndex_le _)

/-- Whatever an instruction answers is one of the effects. -/
theorem exec_effect {i : Instr} {s t : State} (h : exec i s = .next t) : Effect i s t := by
  cases i with
  | cls => cases h; exact .screen _ _ _ (.inl rfl) (sameRegsBut_refl _ s) fun _ => rfl
  | ret =>
    simp only [exec, execRet] at h
    split at h <;> cases h
    · exact .ret ‹_› rfl
    · exact .fault _ (by simp [CanFault])
  | call nnn =>
    simp only [exec, execCall] at h
    split at h <;> cases h
    · exact .call nnn ‹_› rfl
    · exact .fault _ (by simp [CanFault])
  | jp nnn =>
    cases h
    have := nnn.isLt
    exact .control _ (by simp [MovesPc]) (.inr (.inr (by rw [addrWord_toNat]; omega)))
  | jpV0 nnn =>
    cases h
    exact .control _ (by simp [MovesPc]) (.inr (.inr (offsetTarget_le nnn s)))
  | seImm | sneImm | seReg | sneReg | skp | sknp => exact .skipIf (by simp [MovesPc]) h
  | ldVxK x =>
    simp only [exec, execLdVxK] at h
    split at h <;> cases h
    · exact .control _ (by simp [MovesPc]) (.inr (.inl rfl))
    · exact .setReg s (by simp [destinations]) _
  | ldImm | addImm | ldReg | orReg | andReg | xorReg | ldVxDt =>
    cases h; exact .setReg s (by simp [destinations]) _
  | addReg | subReg | subnReg | shr | shl =>
    cases h; exact .setReg_setReg s (by simp [destinations]) (by simp [destinations]) _ _
  | ldI nnn =>
    cases h
    have := nnn.isLt
    exact .index _ _ (.inl ⟨nnn, rfl⟩) (sameRegsBut_refl _ s) (by rw [addrWord_toNat]; omega)
  | addI x => cases h; exact addI_effect x s
  | ldF x => cases h; exact .index _ _ (.inr (.inr ⟨x, rfl⟩)) (sameRegsBut_refl _ s) (glyphAddr_le _)
  | rnd x nn =>
    cases h
    exact .random _ ⟨x, nn, rfl⟩ (sameRegsBut_setReg (sameRegsBut_refl _ s) (by simp [destinations]) _)
  | drw x y n => exact drw_effect h
  | ldDtVx x => cases h; exact .delay x rfl
  | ldStVx x => cases h; exact .sound x rfl
  | ldB | storeRegs => exact .checked (by simp [CanFault]) (.store _ _ (by simp)) h
  | loadRegs x => exact loadRegs_effect h
  | unimpl op => cases h; exact .unchanged

/-- Settles O44: each effect writes only the fields of its kind, and names the instructions it comes from. -/
theorem everyWriterIsListed : Obligations.EveryWriterIsListed := by
  intro i s t h
  cases exec_effect h with
  | unchanged => simp
  | fault f hi => simpa using fun _ => hi
  | registers v hv => simpa [State.readMem] using fun _ => mem_of_reg_ne hv
  | control w hi hw => simpa using fun _ => hi
  | call nnn h hi => simp [hi]
  | ret h hi => simp [hi]
  | index v w hi hv hw => simpa [State.readMem] using ⟨fun _ => mem_of_reg_ne hv, fun _ => hi⟩
  | delay x hi => simp [hi]
  | sound x hi => simp [hi]
  | screen v f b hi hv hb =>
    have hset : b ≠ s.redraw → b = true := fun hne => by
      cases hr : s.redraw with
      | true => exact hb hr
      | false => simpa [hr] using hne
    simpa [State.readMem] using ⟨fun _ => mem_of_reg_ne hv, fun _ => hi, fun hne => ⟨hset hne, hi⟩⟩
  | store a bytes hi => simpa using fun _ _ => hi
  | random v hi hv => simpa [State.readMem] using ⟨fun _ => mem_of_reg_ne hv, hi⟩

/-- Settles O25: it is the register row of the writers' table (O44), read from the other side. -/
theorem onlyDestinationsChange : Obligations.OnlyDestinationsChange := by
  intro i s t r h hr
  obtain ⟨hregs, -⟩ := everyWriterIsListed i s t h
  exact not_imp_comm.1 (hregs r) hr

/-! ### The invariant -/

/-- Settles O45: no stack entry is live at reset, and the empty memory is canonical. -/
theorem resetMeetsInvariant : Obligations.ResetMeetsInvariant where
  pcBound := by decide
  indexBound := by decide
  liveEntries := fun _ hk => absurd hk (Nat.not_lt_zero _)
  memWf := Memory.wf_nil

/-- The execute part keeps the invariant, from the pc that fetch leaves: past the opcode, and at most 0x1000. -/
theorem exec_keeps_inv {i : Instr} {s t : State} (hs : MachineInv s) (hlo : 2 ≤ s.pc.toNat)
    (hhi : s.pc.toNat ≤ 0x1000) (h : exec i s = .next t) : MachineInv t := by
  cases exec_effect h with
  | unchanged | fault | registers | delay | sound | screen | random => exact { hs with }
  | control w hi hw =>
    refine { hs with pcBound := ?_ }
    rcases hw with rfl | rfl | hw
    · show (s.pc + 2).toNat ≤ _
      bv_omega
    · show (s.pc - 2).toNat ≤ _
      bv_omega
    · exact hw
  | call nnn hfull hi =>
    have hn := nnn.isLt
    refine { hs with pcBound := ?_, liveEntries := fun k hk => ?_ }
    · rw [State.setPc_pc, addrWord_toNat]
      omega
    · rw [State.setPc_stack, State.push_entry]
      split
      · exact hhi
      · have hlt : k.val < s.sp.val + 1 := hk
        exact hs.liveEntries k (by omega)
  | ret hpos hi =>
    have hsp := s.sp.isLt
    have htop := hs.liveEntries ⟨s.sp.val - 1, by omega⟩ (by show s.sp.val - 1 < _; omega)
    refine { hs with pcBound := htop.trans (by decide), liveEntries := fun k hk => ?_ }
    have hlt : k.val < s.sp.val - 1 := hk
    exact hs.liveEntries k (by omega)
  | index v w hi hv hw => exact { hs with indexBound := hw }
  | store a bytes hi => exact { hs with memWf := Memory.wf_writeBytes a bytes hs.memWf }

theorem cycle_keeps_inv {s t : State} (hs : MachineInv s) (h : cycle s = .next t) : MachineInv t := by
  rcases cycle_cases h with ⟨-, rfl⟩ | ⟨-, -, rfl⟩ | ⟨-, hpc, hexec⟩
  · exact hs
  · exact { hs with }
  · have hadv : s.advance.pc.toNat = s.pc.toNat + 2 := by
      rw [State.advance_pc]
      bv_omega
    have hu : MachineInv s.advance := { hs with pcBound := by omega }
    exact exec_keeps_inv hu (by omega) (by omega) hexec

/-- Settles O46: events other than `Step` touch nothing the invariant speaks of; a cycle keeps it. -/
theorem stepKeepsInvariant : Obligations.StepKeepsInvariant := by
  intro s t hs h
  have hdrop : MachineInv s.dropEvent := { hs with }
  rcases step_cases h with ⟨-, hc⟩ | ⟨-, rfl⟩ | ⟨-, rfl⟩ | ⟨k, -, rfl⟩
  · exact cycle_keeps_inv hdrop hc
  all_goals exact { hdrop with }

/-! ### The call stack -/

theorem exec_keeps_live_entries {i : Instr} {s t : State} {k : Fin 16} (hk : k.val < s.sp.val)
    (h : exec i s = .next t) : t.stack[k] = s.stack[k] := by
  cases exec_effect h with
  | call nnn hfull hi =>
    rw [State.setPc_stack, State.push_entry, if_neg (by omega)]
  | _ => rfl

/-- Settles O47: the one write to the stack is the push of a call, at sp itself. -/
theorem liveStackEntriesStay : Obligations.LiveStackEntriesStay := by
  intro s t k h hk
  rcases step_cases h with ⟨-, hc⟩ | ⟨-, rfl⟩ | ⟨-, rfl⟩ | ⟨e, -, rfl⟩
  · rcases cycle_cases hc with ⟨-, rfl⟩ | ⟨-, -, rfl⟩ | ⟨-, -, hexec⟩
    · rfl
    · rfl
    · exact exec_keeps_live_entries (s := s.dropEvent.advance) hk hexec
  all_goals rfl

/-! ### Dead stack entries, REDRAW and ST influence nothing -/

/-- Two states that agree on every field but what may differ: the dead stack entries where `dead` holds, REDRAW and
ST where `display` holds. -/
inductive Alike (dead display : Prop) (s : State) : State → Prop
  | mk (o : Vector Word 16) (b : Bool) (c : Byte) (hlive : ∀ k : Fin 16, k.val < s.sp.val → o[k] = s.stack[k])
      (hstack : dead ∨ o = s.stack) (hdisplay : display ∨ b = s.redraw ∧ c = s.st) :
      Alike dead display s { s with stack := o, redraw := b, st := c }

section
variable {dead display : Prop} {s t u : State}

/-! What alike states read alike. -/

theorem Alike.pc (h : Alike dead display s u) : u.pc = s.pc := by cases h; rfl

theorem Alike.i (h : Alike dead display s u) : u.i = s.i := by cases h; rfl

theorem Alike.sp (h : Alike dead display s u) : u.sp = s.sp := by cases h; rfl

theorem Alike.fault (h : Alike dead display s u) : u.fault = s.fault := by cases h; rfl

theorem Alike.reg (h : Alike dead display s u) (x : Reg) : u.reg x = s.reg x := by cases h; rfl

theorem Alike.readMem (h : Alike dead display s u) (a : Nat) : u.readMem a = s.readMem a := by cases h; rfl

theorem Alike.effAddr (h : Alike dead display s u) (k : Nat) : effAddr u k = effAddr s k := by cases h; rfl

theorem Alike.opcodeAt (h : Alike dead display s u) : opcodeAt u = opcodeAt s := by cases h; rfl

theorem Alike.pressedKey (h : Alike dead display s u) : pressedKey u = pressedKey s := by cases h; rfl

theorem Alike.nextEvent (h : Alike dead display s u) : u.nextEvent = s.nextEvent := by cases h; rfl

/-- The top of the stack is a live entry. -/
theorem Alike.top (h : Alike dead display s u) (hs : 0 < s.sp.val) (hu : 0 < u.sp.val) : u.top hu = s.top hs := by
  obtain ⟨o, b, c, hlive, -, -⟩ := h
  have hlt := s.sp.isLt
  exact hlive ⟨s.sp.val - 1, by omega⟩ (Nat.sub_lt hs Nat.one_pos)

/-! The updates that keep states alike. -/

theorem Alike.setReg (h : Alike dead display s u) (x : Reg) (w : Byte) :
    Alike dead display (s.setReg x w) (u.setReg x w) :=
  let ⟨o, b, c, hlive, hstack, hdisplay⟩ := h
  .mk o b c hlive hstack hdisplay

theorem Alike.setPc (h : Alike dead display s u) (w : Word) : Alike dead display (s.setPc w) (u.setPc w) :=
  let ⟨o, b, c, hlive, hstack, hdisplay⟩ := h
  .mk o b c hlive hstack hdisplay

theorem Alike.setI (h : Alike dead display s u) (w : Word) : Alike dead display (s.setI w) (u.setI w) :=
  let ⟨o, b, c, hlive, hstack, hdisplay⟩ := h
  .mk o b c hlive hstack hdisplay

theorem Alike.setFault (h : Alike dead display s u) (f : Option Fault) :
    Alike dead display (s.setFault f) (u.setFault f) :=
  let ⟨o, b, c, hlive, hstack, hdisplay⟩ := h
  .mk o b c hlive hstack hdisplay

theorem Alike.writeMemBytes (h : Alike dead display s u) (a : Nat) (bytes : List Byte) :
    Alike dead display (s.writeMemBytes a bytes) (u.writeMemBytes a bytes) :=
  let ⟨o, b, c, hlive, hstack, hdisplay⟩ := h
  .mk o b c hlive hstack hdisplay

theorem Alike.advance (h : Alike dead display s u) : Alike dead display s.advance u.advance :=
  let ⟨o, b, c, hlive, hstack, hdisplay⟩ := h
  .mk o b c hlive hstack hdisplay

theorem Alike.dropEvent (h : Alike dead display s u) : Alike dead display s.dropEvent u.dropEvent :=
  let ⟨o, b, c, hlive, hstack, hdisplay⟩ := h
  .mk o b c hlive hstack hdisplay

theorem Alike.push (h : Alike dead display s u) (w : Word) (hs : s.sp.val < 16) (hu : u.sp.val < 16) :
    Alike dead display (s.push w hs) (u.push w hu) := by
  obtain ⟨o, b, c, hlive, hstack, hdisplay⟩ := h
  refine .mk (o.set s.sp.val w) b c (fun k hk => ?_) (hstack.imp_right fun e => by rw [e]; rfl) hdisplay
  have hlt : k.val < s.sp.val + 1 := hk
  simp only [State.push_stack, Fin.getElem_fin, Vector.getElem_set]
  split
  · rfl
  · exact hlive k (by omega)

theorem Alike.pop (h : Alike dead display s u) : Alike dead display s.pop u.pop := by
  obtain ⟨o, b, c, hlive, hstack, hdisplay⟩ := h
  refine .mk o b c (fun k hk => hlive k ?_) hstack hdisplay
  have hlt : k.val < s.sp.val - 1 := hk
  omega

/-- REDRAW may differ before the pixel is touched and not after: it is set in both. -/
theorem Alike.touchPixel (h : Alike dead display s u) (row col : Nat) :
    Alike dead display (touchPixel s row col) (touchPixel u row col) := by
  obtain ⟨o, b, c, hlive, hstack, hdisplay⟩ := h
  unfold Machine.touchPixel
  split <;> exact .mk o true c hlive hstack (hdisplay.imp_right fun hd => ⟨rfl, hd.2⟩)

theorem Alike.drawCols (h : Alike dead display s u) (b : Byte) (row x0 count : Nat) :
    Alike dead display (drawCols b row x0 count s) (drawCols b row x0 count u) := by
  induction count generalizing s u with
  | zero => exact h
  | succ k ih =>
    simp only [Machine.drawCols]
    split
    · exact h
    · split
      · exact ih (h.touchPixel _ _)
      · exact ih h

theorem Alike.drawRows (h : Alike dead display s u) (x0 y0 r count : Nat) :
    Alike dead display (drawRows x0 y0 r count s) (drawRows x0 y0 r count u) := by
  induction count generalizing s u r with
  | zero => exact h
  | succ k ih =>
    simp only [Machine.drawRows, h.readMem, h.effAddr]
    split
    · exact h
    · exact ih (h.drawCols _ _ _ _) _

theorem Alike.loadRegsFrom (h : Alike dead display s u) (count : Nat) :
    Alike dead display (loadRegsFrom s count) (loadRegsFrom u count) := by
  induction count with
  | zero => exact h
  | succ k ih =>
    simp only [Machine.loadRegsFrom, ih.readMem, ih.effAddr]
    split
    · exact ih.setReg _ _
    · exact ih

theorem Alike.addIndex (h : Alike dead display s u) (clearVf : Bool) (x : Reg) :
    Alike dead display (addIndex clearVf x s) (addIndex clearVf x u) := by
  simp only [Machine.addIndex, h.i, h.reg]
  split
  · exact (h.setI _).setReg _ _
  · split
    · exact (h.setI _).setReg _ _
    · exact h.setI _

/-! The instructions, the cycle and the step: from alike states to alike states. -/

theorem Alike.checked {a len : Nat} {s' u' : State} (h : Alike dead display s u) (h' : Alike dead display s' u')
    (ht : checked a len s (.next s') = .next t) :
    ∃ w, checked a len u (.next u') = .next w ∧ Alike dead display t w := by
  rcases checked_cases ht with ⟨hlen, hout, rfl⟩ | ⟨hin, hrest⟩
  · exact ⟨_, checked_outside hlen hout, h.setFault _⟩
  · cases hrest
    exact ⟨_, checked_inside hin, h'⟩

theorem Alike.skipIf (h : Alike dead display s u) {c : Bool} (ht : skipIf c s = .next t) :
    ∃ w, skipIf c u = .next w ∧ Alike dead display t w := by
  cases ht
  refine ⟨_, rfl, ?_⟩
  split
  · exact h.advance
  · exact h

theorem Alike.execRet (h : Alike dead display s u) (ht : execRet s = .next t) :
    ∃ w, execRet u = .next w ∧ Alike dead display t w := by
  unfold Machine.execRet at ht ⊢
  by_cases hs : 0 < s.sp.val
  · have hu : 0 < u.sp.val := by rwa [h.sp]
    rw [dif_pos hs] at ht
    cases ht
    rw [dif_pos hu, h.top hs hu]
    exact ⟨_, rfl, (h.setPc _).pop⟩
  · rw [dif_neg hs] at ht
    cases ht
    rw [dif_neg (by rwa [h.sp])]
    exact ⟨_, rfl, h.setFault _⟩

theorem Alike.execCall (h : Alike dead display s u) {nnn : Addr12} (ht : execCall nnn s = .next t) :
    ∃ w, execCall nnn u = .next w ∧ Alike dead display t w := by
  unfold Machine.execCall at ht ⊢
  by_cases hs : s.sp.val < 16
  · have hu : u.sp.val < 16 := by rwa [h.sp]
    rw [dif_pos hs] at ht
    cases ht
    rw [dif_pos hu, h.pc]
    exact ⟨_, rfl, (h.push _ hs hu).setPc _⟩
  · rw [dif_neg hs] at ht
    cases ht
    rw [dif_neg (by rwa [h.sp])]
    exact ⟨_, rfl, h.setFault _⟩

theorem Alike.execLdVxK (h : Alike dead display s u) {x : Reg} (ht : execLdVxK x s = .next t) :
    ∃ w, execLdVxK x u = .next w ∧ Alike dead display t w := by
  unfold Machine.execLdVxK at ht ⊢
  rw [h.pressedKey, h.pc]
  split at ht <;> cases ht
  · exact ⟨_, rfl, h.setPc _⟩
  · exact ⟨_, rfl, h.setReg _ _⟩

/-- Alike states execute an instruction to alike states. -/
theorem Alike.exec {i : Instr} (h : Alike dead display s u) (ht : exec i s = .next t) :
    ∃ w, exec i u = .next w ∧ Alike dead display t w := by
  -- `id` keeps `h` beside its parts: the rules of the shared operations take it whole.
  obtain ⟨o, b, c, hlive, hstack, hdisplay⟩ := id h
  cases i with
  | ret => exact h.execRet ht
  | call nnn => exact h.execCall ht
  | ldVxK x => exact h.execLdVxK ht
  | drw x y n => exact h.checked ((h.setReg vf 0).drawRows _ _ _ _) ht
  | ldB | storeRegs => exact h.checked (h.writeMemBytes _ _) ht
  | loadRegs x => exact h.checked (h.loadRegsFrom _) ht
  | seImm | sneImm | seReg | sneReg | skp | sknp => exact h.skipIf ht
  | addI x => cases ht; exact ⟨_, rfl, h.addIndex _ x⟩
  | cls => cases ht; exact ⟨_, rfl, .mk o true c hlive hstack (hdisplay.imp_right fun hd => ⟨rfl, hd.2⟩)⟩
  | ldStVx x => cases ht; exact ⟨_, rfl, .mk o b _ hlive hstack (hdisplay.imp_right fun hd => ⟨hd.1, rfl⟩)⟩
  | jp | jpV0 | ldImm | addImm | ldReg | orReg | andReg | xorReg | addReg | subReg | shr | subnReg | shl | ldI
  | rnd | ldVxDt | ldDtVx | ldF | unimpl => cases ht; exact ⟨_, rfl, .mk o b c hlive hstack hdisplay⟩

theorem Alike.cycle (h : Alike dead display s u) (ht : cycle s = .next t) :
    ∃ w, cycle u = .next w ∧ Alike dead display t w := by
  rcases cycle_cases ht with ⟨⟨f, hf⟩, rfl⟩ | ⟨hf, hpc, rfl⟩ | ⟨hf, hpc, hexec⟩
  · exact ⟨_, cycle_of_halted (h.fault.trans hf), h⟩
  · exact ⟨_, cycle_of_outside (h.fault.trans hf) (by rwa [h.pc]), h.setFault _⟩
  · rw [cycle_of_fetchable (h.fault.trans hf) (by rwa [h.pc]), h.opcodeAt]
    exact h.advance.exec hexec

theorem Alike.runEvent {e : RunEvent} (h : Alike dead display s u) (ht : runEvent e s = .next t) :
    ∃ w, runEvent e u = .next w ∧ Alike dead display t w := by
  cases e with
  | step => exact h.cycle ht
  | tick =>
    obtain ⟨o, b, c, hlive, hstack, hdisplay⟩ := h
    cases ht
    exact ⟨_, rfl, .mk o b _ hlive hstack (hdisplay.imp_right fun hd => ⟨hd.1, congrArg tickDown hd.2⟩)⟩
  | ackRedraw =>
    obtain ⟨o, b, c, hlive, hstack, hdisplay⟩ := h
    cases ht
    exact ⟨_, rfl, .mk o false c hlive hstack (hdisplay.imp_right fun hd => ⟨rfl, hd.2⟩)⟩
  | keys k =>
    obtain ⟨o, b, c, hlive, hstack, hdisplay⟩ := h
    cases ht
    exact ⟨_, rfl, .mk o b c hlive hstack hdisplay⟩

/-- Alike states step to alike states. -/
theorem Alike.step (h : Alike dead display s u) (ht : step s = .next t) :
    ∃ w, step u = .next w ∧ Alike dead display t w := by
  unfold Machine.step at ht ⊢
  rw [h.nextEvent]
  exact h.dropEvent.runEvent ht

end

/-- Settles O48, by the simulation `Alike.step` for states that may differ in dead stack entries only. -/
theorem deadStackEntriesUnseen : Obligations.DeadStackEntriesUnseen := by
  intro s t other hlive h
  have hstart : Alike True False s { s with stack := other } :=
    .mk other s.redraw s.st hlive (.inl trivial) (.inr ⟨rfl, rfl⟩)
  obtain ⟨w, hw, ⟨o, b, c, hlive', -, hdisplay⟩⟩ := hstart.step h
  obtain ⟨rfl, rfl⟩ := hdisplay.resolve_left id
  exact ⟨o, hw, hlive'⟩

/-- Settles O49, by the simulation `Alike.step` for states that may differ in REDRAW and ST only. -/
theorem redrawAndSoundInfluenceNothing : Obligations.RedrawAndSoundInfluenceNothing := by
  intro s t b c h
  have hstart : Alike False True s { s with redraw := b, st := c } :=
    .mk s.stack b c (fun _ _ => rfl) (.inr rfl) (.inl trivial)
  obtain ⟨w, hw, ⟨o, b', c', -, hstack, -⟩⟩ := hstart.step h
  obtain rfl := hstack.resolve_left id
  exact ⟨b', c', hw⟩

end Sys2Proof.Proofs
end

section
/-!
PROOFS. The memory family (20_memory.md).  What Fx55 does inside memory is said once (`exec_storeRegs_inside`,
`readMem_storeRegs`); that stored bytes are fetched as an opcode follows from it.
-/
namespace Sys2Proof.Proofs
open Sys2Proof.Machine Sys2Proof.Safety

/-- Fx55 whose range lies in memory raises no fault (R144). -/
theorem exec_storeRegs_inside {x : Reg} {s : State} (h : s.i.toNat + x.val ≤ 0xFFF) :
    exec (.storeRegs x) s = .next (s.writeMemBytes (effAddr s 0) (regsUpTo s x)) :=
  checked_inside (.inr (by simp only [effAddr]; omega))

/-- After Fx55 the byte at I + k is register k, for each k up to x (R144). -/
theorem readMem_storeRegs {x : Reg} {s t : State} (hwf : Memory.wf s.mem) (hx : s.i.toNat + x.val ≤ 0xFFF)
    (h : exec (.storeRegs x) s = .next t) {k : Reg} (hk : k.val ≤ x.val) :
    t.readMem (effAddr s k.val) = s.reg k := by
  cases (exec_storeRegs_inside hx).symm.trans h
  have hlen : k.val < (regsUpTo s x).length := by rw [regsUpTo_length]; omega
  have hfit : effAddr s 0 + (regsUpTo s x).length ≤ 0x1000 := by
    rw [regsUpTo_length]; simp only [effAddr]; omega
  exact (Memory.read_writeBytes_inside hwf hfit hlen).trans (regsUpTo_getElem s x k hlen)

/-- Settles O32: both bytes of the opcode lie in the range Fx55 wrote, the first at pc, the second behind it. -/
theorem storedBytesAreFetched : Obligations.StoredBytesAreFetched := by
  intro x a b s t hwf hx hab hb h hpc
  have hnext : t.pc.toNat + 1 = effAddr s b.val := by rw [hpc, hab]; rfl
  have hhigh : t.readMem t.pc.toNat = s.reg a := hpc ▸ readMem_storeRegs hwf hx h (by omega)
  have hlow : t.readMem (t.pc.toNat + 1) = s.reg b := hnext ▸ readMem_storeRegs hwf hx h hb
  rw [opcodeAt, opcodeOfBytes, hhigh, hlow]

end Sys2Proof.Proofs
end

section
/-!
PROOFS. The encoding family (30_encoding.md).  A word is put together from its fields (R83) and a field is read
back from each format: the two round trips of decoder and encoder follow.  That the opcode map accepts a word by the
one row its instruction belongs to, or by none (R94), is `accepts_iff`.  What a step does when a cycle comes next is
said once (`step_of_fetchable`, `step_of_outside`).
-/
namespace Sys2Proof.Proofs
open Sys2Proof.Machine Sys2Proof.Safety Sys2Proof.Laws
open EncodesInItsRow (rowOf)

/-! ### The fields of a word -/

/-- A field of `len` bits from bit `start` is a mask and a shift (R82). -/
theorem toNat_extractLsb'_eq_mask {op mask : Opcode} {start len : Nat}
    (hmask : mask = (BitVec.allOnes len).setWidth 16 <<< start) (hfit : start + len ≤ 16) :
    (op.extractLsb' start len).toNat = ((op &&& mask) >>> start).toNat := by
  refine Nat.eq_of_testBit_eq fun k => ?_
  simp only [hmask, BitVec.testBit_toNat]
  by_cases hk : k < len
  · simp [hk, show start + k < 16 by omega, show k < 16 by omega]
  · simp [hk]

theorem highByte_eq_append (op : Opcode) : highByte op = fieldF op ++ regBits (fieldX op) := by
  simp only [highByte, fieldF, fieldX, regBits_regOf]
  exact (BitVec.extractLsb'_append_extractLsb'_eq_extractLsb' (start₁ := 8) (len₁ := 4) rfl).symm

theorem fieldNN_eq_append (op : Opcode) : fieldNN op = regBits (fieldY op) ++ fieldN op := by
  simp only [fieldNN, fieldN, fieldY, regBits_regOf]
  exact (BitVec.extractLsb'_append_extractLsb'_eq_extractLsb' (start₁ := 0) (len₁ := 4) rfl).symm

/-- Settles O1: each field is its mask and shift, and a byte of the word is its two nibbles appended. -/
theorem fieldsAreMaskedBits : Obligations.FieldsAreMaskedBits := by
  intro op
  exact ⟨toNat_extractLsb'_eq_mask rfl (by decide), toNat_extractLsb'_eq_mask rfl (by decide),
    toNat_extractLsb'_eq_mask rfl (by decide), toNat_extractLsb'_eq_mask (start := 0) rfl (by decide),
    toNat_extractLsb'_eq_mask (start := 0) rfl (by decide), toNat_extractLsb'_eq_mask (start := 0) rfl (by decide),
    highByte_eq_append op, fieldNN_eq_append op, rfl⟩

/-! ### The round trips -/

@[simp] theorem fieldF_encodeAddr (f : Nibble) (nnn : Addr12) : fieldF (encodeAddr f nnn) = f :=
  BitVec.extractLsb'_append_eq_left

@[simp] theorem fieldNNN_encodeAddr (f : Nibble) (nnn : Addr12) : fieldNNN (encodeAddr f nnn) = nnn :=
  BitVec.extractLsb'_append_eq_right

@[simp] theorem fieldF_encodeRegImm (f : Nibble) (x : Reg) (nn : Byte) : fieldF (encodeRegImm f x nn) = f :=
  BitVec.extractLsb'_append_eq_left

@[simp] theorem fieldX_encodeRegImm (f : Nibble) (x : Reg) (nn : Byte) : fieldX (encodeRegImm f x nn) = x := by
  rw [fieldX, encodeRegImm, BitVec.extractLsb'_append_eq_of_add_le (by decide), BitVec.extractLsb'_append_eq_left,
    regOf_regBits]

@[simp] theorem fieldNN_encodeRegImm (f : Nibble) (x : Reg) (nn : Byte) : fieldNN (encodeRegImm f x nn) = nn := by
  rw [fieldNN, encodeRegImm, BitVec.extractLsb'_append_eq_of_add_le (by decide), BitVec.extractLsb'_append_eq_right]

/-- Format REG_REG_N is format REG_IMM with `y ++ n` as `nn` (R83). -/
theorem encodeRegReg_eq_encodeRegImm (f : Nibble) (x y : Reg) (n : Nibble) :
    encodeRegReg f x y n = encodeRegImm f x (regBits y ++ n) := rfl

theorem fieldY_eq_of_fieldNN (op : Opcode) : fieldY op = regOf ((fieldNN op).extractLsb' 4 4) := by
  rw [fieldNN_eq_append, BitVec.extractLsb'_append_eq_left, regOf_regBits]

theorem fieldN_eq_of_fieldNN (op : Opcode) : fieldN op = (fieldNN op).extractLsb' 0 4 := by
  rw [fieldNN_eq_append, BitVec.extractLsb'_append_eq_right]

@[simp] theorem fieldF_encodeRegReg (f : Nibble) (x y : Reg) (n : Nibble) : fieldF (encodeRegReg f x y n) = f :=
  fieldF_encodeRegImm f x _

@[simp] theorem fieldX_encodeRegReg (f : Nibble) (x y : Reg) (n : Nibble) : fieldX (encodeRegReg f x y n) = x :=
  fieldX_encodeRegImm f x _

@[simp] theorem fieldY_encodeRegReg (f : Nibble) (x y : Reg) (n : Nibble) : fieldY (encodeRegReg f x y n) = y := by
  rw [fieldY_eq_of_fieldNN, encodeRegReg_eq_encodeRegImm, fieldNN_encodeRegImm, BitVec.extractLsb'_append_eq_left,
    regOf_regBits]

@[simp] theorem fieldN_encodeRegReg (f : Nibble) (x y : Reg) (n : Nibble) : fieldN (encodeRegReg f x y n) = n := by
  rw [fieldN_eq_of_fieldNN, encodeRegReg_eq_encodeRegImm, fieldNN_encodeRegImm, BitVec.extractLsb'_append_eq_right]

/-- An instruction of the opcode map is what its word decodes to (R83, R88). -/
theorem decode_encode {i : Instr} (hi : ∀ w, i ≠ .unimpl w) : decode (encode i) = i := by
  cases i with
  | cls | ret => rfl
  | jp | call | ldI | jpV0 | seImm | sneImm | ldImm | addImm | rnd | drw => simp [encode, decode]
  | seReg | sneReg => simp [encode, decode, decodeIfN0]
  | ldReg | orReg | andReg | xorReg | addReg | subReg | shr | subnReg | shl => simp [encode, decode, decodeFamily8]
  | skp | sknp => simp [encode, decode, decodeFamilyE]
  | ldVxDt | ldVxK | ldDtVx | ldStVx | addI | ldF | ldB | storeRegs | loadRegs =>
    simp [encode, decode, decodeFamilyF]
  | unimpl op => exact absurd rfl (hi op)

/-! A word is put together again from the fields its format names. -/

theorem encodeAddr_of_fields {op : Opcode} {f : Nibble} (hf : (fieldF op).toNat = f.toNat) :
    encodeAddr f (fieldNNN op) = op := by
  cases BitVec.eq_of_toNat_eq hf
  exact (BitVec.extractLsb'_append_extractLsb'_eq_extractLsb' rfl).trans BitVec.extractLsb'_eq_self

theorem encodeRegImm_of_fields {op : Opcode} {f : Nibble} {nn : Byte} (hf : (fieldF op).toNat = f.toNat)
    (hnn : (fieldNN op).toNat = nn.toNat) : encodeRegImm f (fieldX op) nn = op := by
  cases BitVec.eq_of_toNat_eq hnn
  have hnnn : regBits (fieldX op) ++ fieldNN op = fieldNNN op :=
    BitVec.extractLsb'_append_extractLsb'_eq_extractLsb' rfl
  rw [encodeRegImm, hnnn]
  exact encodeAddr_of_fields hf

theorem encodeRegReg_of_fields {op : Opcode} {f n : Nibble} (hf : (fieldF op).toNat = f.toNat)
    (hn : (fieldN op).toNat = n.toNat) : encodeRegReg f (fieldX op) (fieldY op) n = op := by
  cases BitVec.eq_of_toNat_eq hn
  rw [encodeRegReg_eq_encodeRegImm, ← fieldNN_eq_append]
  exact encodeRegImm_of_fields hf rfl

theorem encode_decodeFamily0 (op : Opcode) : encode (decodeFamily0 op) = op := by
  unfold decodeFamily0
  split
  · exact Eq.symm ‹_›
  · split
    · exact Eq.symm ‹_›
    · rfl

theorem encode_decodeIfN0 {op : Opcode} {i : Instr} (hi : (fieldN op).toNat = 0 → encode i = op) :
    encode (decodeIfN0 op i) = op := by
  unfold decodeIfN0
  split
  · next hn => exact hi (congrArg BitVec.toNat hn)
  · rfl

theorem encode_decodeFamily8 {op : Opcode} (hf : (fieldF op).toNat = 0x8) : encode (decodeFamily8 op) = op := by
  unfold decodeFamily8
  split
  case h_10 => rfl
  all_goals exact encodeRegReg_of_fields hf ‹_›

theorem encode_decodeFamilyE {op : Opcode} (hf : (fieldF op).toNat = 0xE) : encode (decodeFamilyE op) = op := by
  unfold decodeFamilyE
  split
  case h_3 => rfl
  all_goals exact encodeRegImm_of_fields hf ‹_›

theorem encode_decodeFamilyF {op : Opcode} (hf : (fieldF op).toNat = 0xF) : encode (decodeFamilyF op) = op := by
  unfold decodeFamilyF
  split
  case h_10 => rfl
  all_goals exact encodeRegImm_of_fields hf ‹_›

/-- Every word is the encoding of what it decodes to. -/
theorem encode_decode (op : Opcode) : encode (decode op) = op := by
  have hlt : (fieldF op).toNat < 16 := (fieldF op).isLt
  unfold decode
  split
  · exact encode_decodeFamily0 op
  · exact encodeAddr_of_fields ‹_›
  · exact encodeAddr_of_fields ‹_›
  · exact encodeRegImm_of_fields ‹_› rfl
  · exact encodeRegImm_of_fields ‹_› rfl
  · exact encode_decodeIfN0 fun hn => encodeRegReg_of_fields ‹_› hn
  · exact encodeRegImm_of_fields ‹_› rfl
  · exact encodeRegImm_of_fields ‹_› rfl
  · exact encode_decodeFamily8 ‹_›
  · exact encode_decodeIfN0 fun hn => encodeRegReg_of_fields ‹_› hn
  · exact encodeAddr_of_fields ‹_›
  · exact encodeAddr_of_fields ‹_›
  · exact encodeRegImm_of_fields ‹_› rfl
  · exact encodeRegReg_of_fields ‹_› rfl
  · exact encode_decodeFamilyE ‹_›
  · have hf : (fieldF op).toNat = 0xF := by
      simp only [imp_false] at *
      omega
    exact encode_decodeFamilyF hf

/-- An unimplemented opcode keeps the word it was decoded from (R89). -/
theorem eq_of_decode_eq_unimpl {op w : Opcode} (h : decode op = .unimpl w) : w = op := by
  have hw := encode_decode op
  rwa [h] at hw

/-! ### The opcode map -/

/-- A digit that the row's mask keeps whole is the row's own. -/
theorem extractLsb'_of_accepts {r : OpcodeRow} {op : Opcode} {start len : Nat} (h : r.accepts op = true)
    (hmask : r.mask.extractLsb' start len = BitVec.allOnes len) :
    op.extractLsb' start len = r.want.extractLsb' start len := by
  rw [← eq_of_beq h, BitVec.extractLsb'_and, hmask, BitVec.and_allOnes]

/-! The digits a row's mask keeps are the ones its family is dispatched on (R85 to R87). -/

section
variable {r : OpcodeRow} {op : Opcode}

theorem rowOf_decode_of_word (hr : r ∈ opcodeRows.filter (·.mask = 0xFFFF)) (h : r.accepts op = true) :
    rowOf (decode op) = some r := by
  fin_cases hr
  all_goals
    cases BitVec.and_allOnes.symm.trans (eq_of_beq h)
    rfl

theorem rowOf_decode_of_nibble (hr : r ∈ opcodeRows.filter (·.mask = 0xF000)) (h : r.accepts op = true) :
    rowOf (decode op) = some r := by
  fin_cases hr
  all_goals
    have hf : fieldF op = _ := extractLsb'_of_accepts h rfl
    simp only [decode, hf]
    rfl

theorem rowOf_decode_of_nibble_and_n (hr : r ∈ opcodeRows.filter (·.mask = 0xF00F)) (h : r.accepts op = true) :
    rowOf (decode op) = some r := by
  fin_cases hr
  all_goals
    have hf : fieldF op = _ := extractLsb'_of_accepts h rfl
    have hn : fieldN op = _ := extractLsb'_of_accepts h rfl
    simp only [decode, decodeIfN0, decodeFamily8, hf, hn]
    rfl

theorem rowOf_decode_of_nibble_and_nn (hr : r ∈ opcodeRows.filter (·.mask = 0xF0FF)) (h : r.accepts op = true) :
    rowOf (decode op) = some r := by
  fin_cases hr
  all_goals
    have hf : fieldF op = _ := extractLsb'_of_accepts h rfl
    have hnn : fieldNN op = _ := extractLsb'_of_accepts h rfl
    simp only [decode, decodeFamilyE, decodeFamilyF, hf, hnn]
    rfl

/-- A word a row accepts decodes to the row's instruction. -/
theorem rowOf_decode_of_accepts (hr : r ∈ opcodeRows) (h : r.accepts op = true) : rowOf (decode op) = some r := by
  have hmasks : ∀ q ∈ opcodeRows, q.mask = 0xFFFF ∨ q.mask = 0xF000 ∨ q.mask = 0xF00F ∨ q.mask = 0xF0FF := by decide
  rcases hmasks r hr with hm | hm | hm | hm
  · exact rowOf_decode_of_word (by simp [hr, hm]) h
  · exact rowOf_decode_of_nibble (by simp [hr, hm]) h
  · exact rowOf_decode_of_nibble_and_n (by simp [hr, hm]) h
  · exact rowOf_decode_of_nibble_and_nn (by simp [hr, hm]) h

end

/-- The word of every instruction is accepted by the instruction's row: the laws per instruction, put together. -/
theorem encodesInItsRow : (i : Instr) → EncodesInItsRow.Statement i
  | .cls => EncodesInItsRow.cls
  | .ret => EncodesInItsRow.ret
  | .jp nnn => EncodesInItsRow.jp nnn
  | .call nnn => EncodesInItsRow.call nnn
  | .seImm x nn => EncodesInItsRow.seImm x nn
  | .sneImm x nn => EncodesInItsRow.sneImm x nn
  | .seReg x y => EncodesInItsRow.seReg x y
  | .ldImm x nn => EncodesInItsRow.ldImm x nn
  | .addImm x nn => EncodesInItsRow.addImm x nn
  | .ldReg x y => EncodesInItsRow.ldReg x y
  | .orReg x y => EncodesInItsRow.orReg x y
  | .andReg x y => EncodesInItsRow.andReg x y
  | .xorReg x y => EncodesInItsRow.xorReg x y
  | .addReg x y => EncodesInItsRow.addReg x y
  | .subReg x y => EncodesInItsRow.subReg x y
  | .shr x y => EncodesInItsRow.shr x y
  | .subnReg x y => EncodesInItsRow.subnReg x y
  | .shl x y => EncodesInItsRow.shl x y
  | .sneReg x y => EncodesInItsRow.sneReg x y
  | .ldI nnn => EncodesInItsRow.ldI nnn
  | .jpV0 nnn => EncodesInItsRow.jpV0 nnn
  | .rnd x nn => EncodesInItsRow.rnd x nn
  | .drw x y n => EncodesInItsRow.drw x y n
  | .skp x => EncodesInItsRow.skp x
  | .sknp x => EncodesInItsRow.sknp x
  | .ldVxDt x => EncodesInItsRow.ldVxDt x
  | .ldVxK x => EncodesInItsRow.ldVxK x
  | .ldDtVx x => EncodesInItsRow.ldDtVx x
  | .ldStVx x => EncodesInItsRow.ldStVx x
  | .addI x => EncodesInItsRow.addI x
  | .ldF x => EncodesInItsRow.ldF x
  | .ldB x => EncodesInItsRow.ldB x
  | .storeRegs x => EncodesInItsRow.storeRegs x
  | .loadRegs x => EncodesInItsRow.loadRegs x
  | .unimpl op => EncodesInItsRow.unimpl op

/-- The row of what a word decodes to is in the map and accepts the word. -/
theorem mem_and_accepts_of_rowOf_decode {r : OpcodeRow} {op : Opcode} (h : rowOf (decode op) = some r) :
    r ∈ opcodeRows ∧ r.accepts op = true := by
  have hrow := encodesInItsRow (decode op) r h
  rwa [encode_decode] at hrow

/-- A row of the map accepts a word exactly when it is the row of what the word decodes to (R88). -/
theorem accepts_iff {r : OpcodeRow} {op : Opcode} (hr : r ∈ opcodeRows) :
    r.accepts op = true ↔ rowOf (decode op) = some r :=
  ⟨rowOf_decode_of_accepts hr, fun h => (mem_and_accepts_of_rowOf_decode h).2⟩

theorem eq_unimpl_of_rowOf_eq_none {i : Instr} (h : rowOf i = none) : ∃ w, i = .unimpl w := by
  cases i with
  | unimpl w => exact ⟨w, rfl⟩
  | _ => cases h

theorem decode_eq_unimpl_of_rowOf {op : Opcode} (h : rowOf (decode op) = none) : decode op = .unimpl op := by
  obtain ⟨w, hw⟩ := eq_unimpl_of_rowOf_eq_none h
  rw [hw, eq_of_decode_eq_unimpl hw]

/-- The unimplemented opcodes are the words that match no row of the map (R89). -/
theorem isInstruction_eq_false_iff {op : Opcode} : isInstruction op = false ↔ decode op = .unimpl op := by
  constructor
  · intro hno
    cases hrow : rowOf (decode op) with
    | none => exact decode_eq_unimpl_of_rowOf hrow
    | some r =>
      obtain ⟨hr, ha⟩ := mem_and_accepts_of_rowOf_decode hrow
      exact absurd ha (List.any_eq_false.1 hno r hr)
  · intro hdec
    refine List.any_eq_false.2 fun r hr ha => ?_
    have hrow := rowOf_decode_of_accepts hr ha
    rw [hdec] at hrow
    cases hrow

/-- Settles O4: an instruction of the map is read back from its fields (`decode_encode`); a well-formed unimplemented
opcode matches no row. -/
theorem decodeInvertsEncode : Obligations.DecodeInvertsEncode := by
  intro i hwf
  cases i with
  | unimpl op => exact (isInstruction_eq_false_iff (op := op)).1 (by simpa [Instr.wf] using hwf)
  | _ => exact decode_encode nofun

/-- Settles O3: the rows that accept a word are those equal to the row of what it decodes to, and the map lists a row
once. -/
theorem everyWordIsOneRowOrUnimplemented : Obligations.EveryWordIsOneRowOrUnimplemented := by
  intro op
  cases hrow : rowOf (decode op) with
  | some r =>
    obtain ⟨hr, -⟩ := mem_and_accepts_of_rowOf_decode hrow
    refine .inl ⟨?_, fun w hw => by rw [hw] at hrow; cases hrow⟩
    have hnodup : opcodeRows.Nodup := by decide
    calc opcodeRows.countP (·.accepts op)
      _ = opcodeRows.count r := List.countP_congr fun q hq => by
        rw [accepts_iff hq, hrow, Option.some_inj, beq_iff_eq, eq_comm]
      _ = 1 := List.count_eq_one_of_mem hnodup hr
  | none =>
    exact .inr ⟨List.countP_eq_zero.2 fun q hq => by simp [accepts_iff hq, hrow], decode_eq_unimpl_of_rowOf hrow⟩

/-- Settles O5: no bit is lost (`encode_decode`), and what decodes to an unimplemented opcode matches no row. -/
theorem encodeInvertsDecode : Obligations.EncodeInvertsDecode := by
  intro op
  refine ⟨encode_decode op, ?_⟩
  cases hi : decode op with
  | unimpl w =>
    cases eq_of_decode_eq_unimpl hi
    simp [Instr.wf, isInstruction_eq_false_iff.2 hi]
  | _ => rfl

/-- Settles O2, by running the decoder on the twenty words. -/
theorem sampleWordsDecode : Obligations.SampleWordsDecode := by
  unfold Obligations.SampleWordsDecode
  decide

/-! ### The cycle -/

theorem opcodeOfBytes_toNat (hi lo : Byte) : (opcodeOfBytes hi lo).toNat = hi.toNat * 256 + lo.toNat := by
  rw [opcodeOfBytes, BitVec.toNat_append, ← Nat.shiftLeft_add_eq_or_of_lt lo.isLt, Nat.shiftLeft_eq]

/-- A step that is a cycle runs the instruction at pc (R80, R81). -/
theorem step_of_fetchable {s : State} (hrun : Running s) (hev : s.nextEvent = .step) (hpc : Fetchable s) :
    step s = exec (decode (opcodeAt s)) { s with pc := s.pc + 2, sched := s.sched.tail } := by
  unfold step
  rw [hev]
  exact cycle_of_fetchable (s := s.dropEvent) hrun hpc

/-- A step that is a cycle faults where the second byte at pc lies outside memory (R81). -/
theorem step_of_outside {s : State} (hrun : Running s) (hev : s.nextEvent = .step) (hpc : 0xFFF < s.pc.toNat + 1) :
    step s = .next { s with fault := some .memoryOutOfRange, sched := s.sched.tail } := by
  unfold step
  rw [hev]
  exact cycle_of_outside (s := s.dropEvent) hrun hpc

/-- Settles O6: the two bytes at pc are the opcode that the cycle decodes. -/
theorem stepRunsDecodedInstruction : Obligations.StepRunsDecodedInstruction := by
  intro s i hrun hev hpc hdec
  cases hdec
  exact step_of_fetchable hrun hev hpc

/-- Settles O7, by the two outcomes of the range check at pc. -/
theorem fetchChecksThenAdvances : Obligations.FetchChecksThenAdvances := fun s hrun hev =>
  ⟨step_of_outside hrun hev, fun hpc =>
    ⟨opcodeAt s, opcodeOfBytes_toNat _ _, step_of_fetchable hrun hev hpc⟩⟩

end Sys2Proof.Proofs
end

section
/-!
PROOFS. The control flow family (40_control_flow.md).  What a skip, a call and a return do is said once per case; a
step with nothing lined up is a cycle (`step_eq_cycle`).  The round trip of call and return is an induction over the
run between them: each step keeps the live stack entries (`liveStackEntriesStay`), so a run keeps an entry that stays
live all along (`run_keeps_live_entry`).
-/
namespace Sys2Proof.Proofs
open Sys2Proof.Machine Sys2Proof.Safety

/-! ### What the control instructions do -/

theorem onlyPc_setPc (s : State) (w : Word) : OnlyPc s (s.setPc w) := ⟨fun _ => rfl, rfl⟩

/-- A skip writes pc and nothing else, for a comparison of either polarity (R103). -/
theorem skipIf_eq {c : Bool} {p : Prop} [Decidable p] (s : State) (h : c = true ↔ p) :
    skipIf c s = .next { s with pc := if p then s.pc + 2 else s.pc } := by
  by_cases hp : p
  · rw [if_pos hp, h.2 hp]
    rfl
  · rw [if_neg hp, Bool.eq_false_iff.2 (mt h.1 hp)]
    rfl

theorem exec_call_of_room {s : State} (nnn : Addr12) (h : s.sp.val < 16) :
    exec (.call nnn) s = .next ((s.push s.pc h).setPc (addrWord nnn)) :=
  dif_pos h

theorem exec_call_of_full {s : State} (nnn : Addr12) (h : s.sp.val = 16) :
    exec (.call nnn) s = .next (s.setFault (some .stackOverflow)) :=
  dif_neg (by omega)

/-- A return at depth k + 1 takes entry k (R100). -/
theorem exec_ret_of_entry {s : State} {k : Fin 16} (h : s.sp.val = k.val + 1) :
    exec .ret s = .next ((s.setPc s.stack[k]).pop) := by
  rw [← State.top_eq s k h]
  exact dif_pos (by omega)

theorem exec_ret_of_empty {s : State} (h : s.sp.val = 0) :
    exec .ret s = .next (s.setFault (some .stackUnderflow)) :=
  dif_neg (by omega)

/-- With nothing lined up the next event is a cycle (R214). -/
theorem step_eq_cycle {s : State} (h : s.sched = []) : step s = cycle s := by
  rw [step, nextEvent_of_nil h, dropEvent_of_nil h]
  rfl

/-- With nothing lined up, a pc whose second byte lies outside memory faults at the next fetch (R81). -/
theorem step_faults_of_outside {s : State} (hrun : Running s) (hsched : s.sched = []) (hpc : 0xFFF < s.pc.toNat + 1) :
    step s = .next { s with fault := some .memoryOutOfRange } :=
  (step_eq_cycle hsched).trans (cycle_of_outside hrun hpc)

/-! ### Jumps and skips -/

/-- Settles O11: a self-jump takes back the advance of its own fetch; 0xFFF + 1 lies outside memory. -/
theorem jumpSetsPc : Obligations.JumpSetsPc := by
  refine ⟨fun nnn s => ⟨_, rfl, addrWord_toNat nnn, onlyPc_setPc s _⟩, ?_, ?_⟩
  · intro nnn s hrun hsched hpc hdec hself
    have hback : addrWord nnn = s.pc := BitVec.eq_of_toNat_eq ((addrWord_toNat nnn).trans hself)
    calc step s
      _ = exec (.jp nnn) s.advance := by rw [step_eq_cycle hsched, cycle_of_fetchable hrun hpc, hdec]
      _ = .next (s.advance.setPc s.pc) := by rw [← hback]; rfl
      _ = .next s := rfl
  · intro s t hrun hsched h
    cases h
    exact step_faults_of_outside hrun hsched (show 0xFFF < (addrWord 0xFFF).toNat + 1 by decide)

/-- Settles O12: the sum of a 12-bit and an 8-bit number fits 16 bits, so nothing is cut off. -/
theorem jumpWithOffsetSetsPc : Obligations.JumpWithOffsetSetsPc := by
  intro nnn s
  refine ⟨_, rfl, ?_, onlyPc_setPc s _⟩
  have hn := nnn.isLt
  have hb := (s.reg 0).isLt
  rw [State.setPc_pc, offsetTarget, BitVec.toNat_add, addrWord_toNat, byteWord_toNat]
  omega

/-- Settles O13: each of the four is `skipIf` on its comparison. -/
theorem compareSkips : Obligations.CompareSkips := fun _ _ _ s =>
  ⟨skipIf_eq s beq_iff_eq, skipIf_eq s bne_iff_ne, skipIf_eq s beq_iff_eq, skipIf_eq s bne_iff_ne⟩

/-- Settles O18: such a word decodes to `unimpl` (`isInstruction_eq_false_iff`), which leaves the fetched state. -/
theorem unimplementedOnlyAdvances : Obligations.UnimplementedOnlyAdvances := by
  refine ⟨fun _ _ => rfl, fun s hrun hsched hpc hno => ?_⟩
  rw [step_eq_cycle hsched, cycle_of_fetchable hrun hpc, isInstruction_eq_false_iff.1 hno]
  rfl

/-! ### Calls and returns -/

/-- Settles O15, by whether the stack has room. -/
theorem callPushesAndJumps : Obligations.CallPushesAndJumps := by
  refine fun nnn s => ⟨fun hroom => ?_, exec_call_of_full nnn⟩
  have hentries := s.push_entry s.pc hroom
  exact ⟨_, exec_call_of_room nnn hroom, addrWord_toNat nnn, rfl, hentries, fun _ => rfl, rfl⟩

/-- Settles O16, by whether the stack has an entry; the popped pc fails the range check of the next fetch. -/
theorem returnPopsIntoPc : Obligations.ReturnPopsIntoPc := by
  refine fun s => ⟨fun k hk => ?_, exec_ret_of_empty⟩
  have hsp : s.sp.val - 1 = k.val := by omega
  exact ⟨_, exec_ret_of_entry hk, rfl, hsp, fun _ => rfl, rfl, fun hrun hsched htop =>
    step_faults_of_outside hrun hsched (Nat.lt_succ_of_le htop)⟩

/-- A run of n + 1 steps is a step and a run of n steps. -/
theorem run_succ_of_step {M : Host.Core} {s t : M.State} (h : M.step s = .next t) (n : Nat) :
    M.run (n + 1) s = M.run n t := by
  rw [Host.Core.run, h]

theorem exists_step_of_run_succ {M : Host.Core} {n : Nat} {s u : M.State} (h : M.run (n + 1) s = .next u) :
    ∃ t, M.step s = .next t ∧ M.run n t = .next u := by
  rw [Host.Core.run] at h
  split at h
  · exact ⟨_, ‹_›, h⟩
  · cases h
  · cases h

/-- A stack entry that stays live along a run keeps its value. -/
theorem run_keeps_live_entry {n : Nat} {t u : State} {k : Fin 16} (h : core.run n t = .next u)
    (hlive : ∀ (m : Nat) (x : State), m ≤ n → core.run m t = .next x → k.val < x.sp.val) :
    u.stack[k] = t.stack[k] := by
  induction n generalizing t with
  | zero => cases h; rfl
  | succ n ih =>
    obtain ⟨t', hstep, hrest⟩ := exists_step_of_run_succ h
    have hfirst : t'.stack[k] = t.stack[k] :=
      liveStackEntriesStay t t' k hstep (hlive 0 t (Nat.zero_le _) rfl)
    have hlater : u.stack[k] = t'.stack[k] := ih hrest fun m x hm hx =>
      hlive (m + 1) x (Nat.succ_le_succ hm) ((run_succ_of_step hstep m).trans hx)
    exact hlater.trans hfirst

/-- Settles O17: the entry the call pushed stays live during the run, so the return finds it as it was. -/
theorem callReturnRoundTrip : Obligations.CallReturnRoundTrip := by
  intro nnn s t u n hroom hcall hrun hdepth hu
  cases (exec_call_of_room nnn hroom).symm.trans hcall
  obtain ⟨k, hk⟩ : ∃ k : Fin 16, k.val = s.sp.val := ⟨⟨s.sp.val, hroom⟩, rfl⟩
  have hpushed : (s.push s.pc hroom).stack[k] = s.pc := (s.push_entry s.pc hroom k).trans (if_pos hk)
  have hkept := run_keeps_live_entry (k := k) hrun fun m x hm hx => hk ▸ hdepth m x hm hx
  have hsp : u.sp.val - 1 = s.sp.val := by omega
  exact ⟨_, exec_ret_of_entry (hk ▸ hu), hkept.trans hpushed, Fin.ext hsp⟩

end Sys2Proof.Proofs
end

section
/-!
PROOFS. The arithmetic family (41_alu.md).  Every instruction of it writes one or two registers: `onlyRegs_setReg`
gives its frame, and the lemmas on `toNat` and on flags read its results as numbers.  The subtractions and the shifts
share their last two writes, VF and then the result (`setReg_vf_setReg`).
-/
namespace Sys2Proof.Proofs
open Sys2Proof.Machine Sys2Proof.Safety

/-! ### Frames -/

theorem onlyRegs_refl (rs : List Reg) (s : State) : OnlyRegs rs s s := ⟨sameRegsBut_refl rs s, fun _ => rfl, rfl⟩

/-- A register of the list may be written. -/
theorem onlyRegs_setReg {rs : List Reg} {s u : State} (h : OnlyRegs rs s u) {x : Reg} (hx : x ∈ rs) (b : Byte) :
    OnlyRegs rs s (u.setReg x b) := by
  obtain ⟨hregs, hmem, hframe⟩ := h
  refine ⟨sameRegsBut_setReg hregs hx b, hmem, ?_⟩
  rw [hframe]
  rfl

/-- Writing one register is all that 6xnn, 7xnn and 8xy0 to 8xy3 do. -/
theorem onlyRegs_setReg_self (s : State) (x : Reg) (b : Byte) : OnlyRegs [x] s (s.setReg x b) :=
  onlyRegs_setReg (onlyRegs_refl _ s) (List.mem_singleton_self x) b

/-- VF and then the result (R121): VF keeps the flag unless the result goes there, and x and F are all that changes. -/
theorem setReg_vf_setReg {s u : State} {x : Reg} (h : OnlyRegs [x, 15] s u) (f b : Byte) :
    (x ≠ 15 → ((u.setReg vf f).setReg x b).reg 15 = f) ∧ OnlyRegs [x, 15] s ((u.setReg vf f).setReg x b) := by
  refine ⟨fun hx => ?_, onlyRegs_setReg (onlyRegs_setReg h (by simp [vf]) f) (by simp) b⟩
  rw [State.reg_setReg_ne _ b hx.symm]
  exact u.reg_setReg_same vf f

/-! ### Flags and results as numbers -/

theorem flagByte_eq_flagOf {c : Bool} {p : Prop} [Decidable p] (h : c = true ↔ p) : flagByte c = flagOf p :=
  if_congr h rfl rfl

theorem lowBit_iff (a : Byte) : lowBit a = true ↔ a.toNat % 2 = 1 := by
  rw [lowBit, BitVec.getLsbD, Nat.testBit_zero, decide_eq_true_iff]

theorem highBit_iff (a : Byte) : highBit a = true ↔ 128 ≤ a.toNat := by
  rw [highBit, ← BitVec.msb_eq_getLsbD_last a, BitVec.msb_eq_true_iff_two_mul_ge]
  omega

theorem toNat_sub_eq (a b : Byte) : (a - b).toNat = (a.toNat + 256 - b.toNat) % 256 := by
  have hb := b.isLt
  rw [BitVec.toNat_sub]
  omega

theorem toNat_shiftRight_one (a : Byte) : (a >>> 1).toNat = a.toNat / 2 := by
  rw [BitVec.toNat_ushiftRight, Nat.shiftRight_eq_div_pow, Nat.pow_one]

theorem toNat_shiftLeft_one (a : Byte) : (a <<< 1).toNat = a.toNat * 2 % 256 := by
  rw [BitVec.toNat_shiftLeft, Nat.shiftLeft_eq, Nat.pow_one]

/-! ### Subtractions and shifts: VF first -/

/-- The difference of two registers after VF took `f`: a register F holds `f` by then (decision D6). -/
theorem toNat_sub_after_flag (s : State) (f : Byte) (p q : Reg) :
    ((s.setReg vf f).reg p - (s.setReg vf f).reg q).toNat =
      ((if p = 15 then f else s.reg p).toNat + 256 - (if q = 15 then f else s.reg q).toNat) % 256 := by
  rw [toNat_sub_eq, State.reg_setReg, State.reg_setReg]
  rfl

/-- Settles O21: the difference is taken after the flag is written, and only then stored. -/
theorem subtractWritesFlagFirst : Obligations.SubtractWritesFlagFirst := by
  intro x y s
  have hframe := onlyRegs_refl [x, 15] s
  refine ⟨⟨_, _, flagByte_eq_flagOf decide_eq_true_iff, rfl, ?_, setReg_vf_setReg hframe _ _⟩,
    ⟨_, _, flagByte_eq_flagOf decide_eq_true_iff, rfl, ?_, setReg_vf_setReg hframe _ _⟩⟩
  · rw [State.reg_setReg_same]
    exact toNat_sub_after_flag s _ x y
  · rw [State.reg_setReg_same]
    exact toNat_sub_after_flag s _ y x

/-- The register a shift works on holds the source it is told to take (decision D20). -/
theorem reg_shiftSource (usesVy : Bool) (x y : Reg) (s : State) :
    (shiftSource usesVy x y s).reg x = if usesVy then s.reg y else s.reg x := by
  cases usesVy with
  | false => rfl
  | true => exact s.reg_setReg_same x (s.reg y)

theorem onlyRegs_shiftSource (usesVy : Bool) (x y : Reg) (s : State) :
    OnlyRegs [x, 15] s (shiftSource usesVy x y s) := by
  cases usesVy with
  | false => exact onlyRegs_refl _ s
  | true => exact onlyRegs_setReg (onlyRegs_refl _ s) (by simp) _

/-- Settles O22: once the source stands in V[x], both shifts write VF and then shift what V[x] holds. -/
theorem shiftsWriteFlagFirst : Obligations.ShiftsWriteFlagFirst := by
  refine fun x y s => ⟨rfl, rfl, fun usesVy a ha => ?_⟩
  have hsource : (shiftSource usesVy x y s).reg x = a := (reg_shiftSource usesVy x y s).trans ha.symm
  have hafter := fun f : Byte => State.reg_setReg (shiftSource usesVy x y s) vf f x
  have hframe := onlyRegs_shiftSource usesVy x y s
  rw [← hsource]
  refine ⟨⟨_, _, flagByte_eq_flagOf (lowBit_iff _), rfl, ?_, setReg_vf_setReg hframe _ _⟩,
    ⟨_, _, flagByte_eq_flagOf (highBit_iff _), rfl, ?_, setReg_vf_setReg hframe _ _⟩⟩
  · rw [State.reg_setReg_same, toNat_shiftRight_one, hafter]
    rfl
  · rw [State.reg_setReg_same, toNat_shiftLeft_one, hafter]
    rfl

/-! ### Loads, additions, logic and the random byte -/

/-- Settles O19: each of the six writes its result into V[x] and does nothing more. -/
theorem flaglessRegisterResults : Obligations.FlaglessRegisterResults := by
  intro x y nn s
  have hresult := s.reg_setReg_same x
  have hframe := onlyRegs_setReg_self s x
  refine ⟨⟨_, rfl, hresult _, hframe _⟩, ⟨_, rfl, ?_, hframe _⟩, ⟨_, rfl, hresult _, hframe _⟩,
    ⟨_, rfl, hresult _, hframe _⟩, ⟨_, rfl, hresult _, hframe _⟩, ⟨_, rfl, hresult _, hframe _⟩⟩
  rw [hresult, BitVec.toNat_add]

/-- Settles O20: the carry is written last, so it stays in VF; the sum stays in V[x] unless x is F. -/
theorem addWritesCarryLast : Obligations.AddWritesCarryLast := by
  intro x y s
  have hframe := onlyRegs_setReg (onlyRegs_refl [x, 15] s) (x := x) (by simp) (s.reg x + s.reg y)
  refine ⟨_, rfl, ?_, fun hx => ?_, onlyRegs_setReg hframe (by simp [vf]) _⟩
  · exact (State.reg_setReg_same _ vf _).trans (flagByte_eq_flagOf decide_eq_true_iff)
  · rw [State.reg_setReg_ne _ _ (show x ≠ vf from hx), State.reg_setReg_same, BitVec.toNat_add]

/-- Settles O23: a bit of the mask that is 0 is 0 in the conjunction, whatever byte is drawn. -/
theorem randomIsMasked : Obligations.RandomIsMasked := by
  intro x nn s
  have hresult : ∀ r, (randomMasked r x nn s.countDraw).reg x = nn &&& r := fun r =>
    State.reg_setReg_same _ x (nn &&& r)
  have hregs : SameRegsBut [x] s s.countDraw := fun _ _ => rfl
  refine ⟨⟨_, _, rfl, rfl, hresult _, rfl, sameRegsBut_setReg hregs (List.mem_singleton_self x) _, fun _ => rfl, rfl⟩,
    fun t h k hk => ?_⟩
  cases h
  rw [hresult, BitVec.getLsbD_and, hk, Bool.false_and]

/-- Settles O24: the second sum starts from the first, and reducing modulo 256 once or twice is the same. -/
theorem addImmediatesAccumulate : Obligations.AddImmediatesAccumulate := by
  intro x a b s
  refine ⟨_, _, rfl, rfl, ?_, onlyRegs_setReg (onlyRegs_setReg_self s x _) (List.mem_singleton_self x) _⟩
  rw [State.reg_setReg_same, State.reg_setReg_same, BitVec.toNat_add, BitVec.toNat_add, Nat.mod_add_mod]

end Sys2Proof.Proofs
end

section
/-!
PROOFS. The index and memory family (42_index_memory.md).  A rule behind a range check does its transfer or raises the
fault (`checked_inside`, `checked_outside`); what a transfer leaves in its range and outside it is said once for all
stores (`readMem_writeMemBytes`, `onlyBytes_writeMemBytes`) and for Fx65 (`reg_loadRegs`).
-/
namespace Sys2Proof.Proofs
open Sys2Proof.Machine Sys2Proof.Safety

/-! ### The index register -/

theorem onlyIndex_setI (s : State) (w : Word) : OnlyIndex s (s.setI w) := ⟨fun _ => rfl, rfl⟩

theorem toNat_glyphAddr (b : Byte) : (glyphAddr b).toNat = 0x050 + 5 * (b.toNat % 16) := by
  rw [glyphAddr, BitVec.toNat_ofNat, lowNibble_val]
  simp only [Config.fontBase, Config.glyphStride]
  omega

/-- Settles O26: either one is a single write of I, by the value of its operand. -/
theorem indexLoads : Obligations.IndexLoads := fun nnn x s =>
  ⟨⟨_, rfl, addrWord_toNat nnn, onlyIndex_setI s _⟩, ⟨_, rfl, toNat_glyphAddr (s.reg x), onlyIndex_setI s _⟩⟩

/-- The mask 0x0FFF of Fx1E is a remainder (R141). -/
theorem toNat_maskedIndex (n : Nat) : (BitVec.ofNat 16 (n &&& 0x0FFF)).toNat = n % 4096 := by
  have hmask : n &&& 0x0FFF = n % 4096 := Nat.and_two_pow_sub_one_eq_mod n 12
  rw [hmask, BitVec.toNat_ofNat]
  omega

theorem setReg_reg_self (s : State) (x : Reg) : s.setReg x (s.reg x) = s :=
  congrArg (fun v => { s with v := v }) (Vector.set_getElem_self x.isLt)

/-- Fx1E as two writes, I and then VF: where it leaves VF alone, VF takes the value it has (R141). -/
theorem addIndex_eq (clearVf : Bool) (x : Reg) (s : State) :
    addIndex clearVf x s =
      (s.setI (BitVec.ofNat 16 (s.i.toNat + (s.reg x).toNat &&& 0x0FFF))).setReg 15
        (if 0x0FFF < s.i.toNat + (s.reg x).toNat then 1 else if clearVf then 0 else s.reg 15) := by
  by_cases hover : 0x0FFF < s.i.toNat + (s.reg x).toNat
  · rw [if_pos hover]
    exact if_pos (decide_eq_true hover)
  · rw [if_neg hover]
    refine (if_neg (mt of_decide_eq_true hover)).trans ?_
    cases clearVf with
    | true => rfl
    | false => exact (setReg_reg_self (s.setI _) 15).symm

/-- Settles O27: the two writes of `addIndex_eq`, read back; the instruction has the parameter false. -/
theorem addToIndexSetsOverflow : Obligations.AddToIndexSetsOverflow := by
  refine fun x s => ⟨⟨_, rfl, rfl⟩, fun clearVf => ⟨_, rfl, ?_⟩⟩
  rw [addIndex_eq]
  refine ⟨toNat_maskedIndex _, State.reg_setReg_same _ 15 _, ?_, fun _ => rfl, rfl⟩
  exact sameRegsBut_setReg (fun _ _ => rfl) (List.mem_singleton_self 15) _

/-! ### Stores -/

/-- Bytes stored from I up are read back at I + k. -/
theorem readMem_writeMemBytes {s : State} {bytes : List Byte} {k : Nat} (hwf : Memory.wf s.mem)
    (hfit : s.i.toNat + bytes.length ≤ 0x1000) (hk : k < bytes.length) :
    (s.writeMemBytes (effAddr s 0) bytes).readMem (effAddr s k) = bytes[k] :=
  Memory.read_writeBytes_inside (a := effAddr s 0) hwf hfit hk

theorem onlyBytes_writeMemBytes (s : State) (a : Nat) (bytes : List Byte) :
    OnlyBytes a bytes.length s (s.writeMemBytes a bytes) :=
  ⟨fun _ => Memory.read_writeBytes_outside, rfl⟩

/-- The digits are the hundreds, tens and ones of the byte's value (R143). -/
theorem toNat_bcdDigits (b : Byte) :
    (bcdDigits b)[0].toNat = b.toNat / 100 ∧ (bcdDigits b)[1].toNat = b.toNat / 10 % 10 ∧
      (bcdDigits b)[2].toNat = b.toNat % 10 := by
  simp [bcdDigits]

/-- Settles O28: the three digits are stored from I up, once the range check has passed. -/
theorem bcdStoresDigits : Obligations.BcdStoresDigits := by
  refine fun x s hwf => ⟨fun hx => ?_, fun hx => checked_outside (by decide) (Nat.succ_lt_succ hx)⟩
  have hread := fun (k : Nat) (hk : k < 3) => congrArg BitVec.toNat <|
    readMem_writeMemBytes (bytes := bcdDigits (s.reg x)) hwf (Nat.succ_le_succ hx) hk
  obtain ⟨hhundreds, htens, hones⟩ := toNat_bcdDigits (s.reg x)
  exact ⟨_, checked_inside (.inr (Nat.succ_le_succ hx)), (hread 0 (by decide)).trans hhundreds,
    (hread 1 (by decide)).trans htens, (hread 2 (by decide)).trans hones,
    onlyBytes_writeMemBytes s _ (bcdDigits (s.reg x))⟩

/-- Settles O29: `readMem_storeRegs` inside the range, `onlyBytes_writeMemBytes` outside it. -/
theorem storeRegistersWritesRange : Obligations.StoreRegistersWritesRange := by
  refine fun x s hwf => ⟨fun hx => ?_, fun hx => checked_outside (Nat.succ_pos _) (Nat.succ_lt_succ hx)⟩
  have hstore := exec_storeRegs_inside hx
  have hframe := onlyBytes_writeMemBytes s (effAddr s 0) (regsUpTo s x)
  rw [regsUpTo_length] at hframe
  exact ⟨_, hstore, fun k hk => readMem_storeRegs hwf hx hstore hk, hframe⟩

/-! ### Loads -/

/-- Fx65 whose range lies in memory raises no fault (R145). -/
theorem exec_loadRegs_inside {x : Reg} {s : State} (h : s.i.toNat + x.val ≤ 0xFFF) :
    exec (.loadRegs x) s = .next (loadRegsFrom s (x.val + 1)) :=
  checked_inside (.inr (Nat.succ_le_succ h))

theorem reg_loadRegs (s : State) (x k : Reg) :
    (loadRegsFrom s (x.val + 1)).reg k = if k.val ≤ x.val then s.readMem (effAddr s k.val) else s.reg k := by
  obtain ⟨hregs, -⟩ := loadRegsFrom_spec s (x.val + 1)
  exact (hregs k).trans (if_congr Nat.lt_succ_iff rfl rfl)

/-- Settles O30: the registers by `reg_loadRegs`, the frame because the transfer writes V alone. -/
theorem loadRegistersReadsRange : Obligations.LoadRegistersReadsRange := by
  refine fun x s => ⟨fun hx => ?_, fun hx => checked_outside (Nat.succ_pos _) (Nat.succ_lt_succ hx)⟩
  obtain ⟨-, hframe⟩ := loadRegsFrom_spec s (x.val + 1)
  exact ⟨_, exec_loadRegs_inside hx, reg_loadRegs s x, fun a => by rw [hframe]; rfl, hframe⟩

/-- Settles O31: the load reads at I + k the byte that the store put there. -/
theorem storeThenLoadRestores : Obligations.StoreThenLoadRestores := by
  intro x s t u hwf hx hstore hmem hi
  refine ⟨_, exec_loadRegs_inside (hi ▸ hx), fun k hk => ?_⟩
  have haddr : effAddr u k.val = effAddr s k.val := by rw [effAddr, hi, effAddr]
  calc (loadRegsFrom u (x.val + 1)).reg k
    _ = u.readMem (effAddr u k.val) := (reg_loadRegs u x k).trans (if_pos hk)
    _ = t.readMem (effAddr s k.val) := by rw [haddr, hmem]
    _ = s.reg k := readMem_storeRegs hwf hx hstore hk

end Sys2Proof.Proofs
end

section
/-!
PROOFS. The display family (43_display.md).  A draw that passes its range check is a run of `drawRows`, whose effect
`drawRows_spec` says for the pixels under the sprite; these are the pixels of `SpriteOn` (`spriteOn_iff`), which a first
draw does not move for a second one (`spriteOn_congr`).
-/
namespace Sys2Proof.Proofs
open Sys2Proof.Machine Sys2Proof.Safety

/-! ### The clear operation -/

/-- Settles O33: the buffer becomes the zero buffer and REDRAW true, which a second 00E0 writes again. -/
theorem clearScreenClearsAll : Obligations.ClearScreenClearsAll := fun _ =>
  ⟨_, rfl, fun _ _ _ _ => BitVec.getLsbD_zero, rfl, fun _ => rfl, rfl, rfl⟩

/-! ### One draw -/

theorem originCol_eq_mod (s : State) (x : Reg) : originCol s x = (s.reg x).toNat % 64 :=
  Nat.and_two_pow_sub_one_eq_mod _ 6

theorem originRow_eq_mod (s : State) (y : Reg) : originRow s y = (s.reg y).toNat % 32 :=
  Nat.and_two_pow_sub_one_eq_mod _ 5

/-- `SpriteOn` in the words of `drawRows_spec`, for the state with VF cleared that the rows are drawn on. -/
theorem spriteOn_iff (s : State) (x y : Reg) (n : Nibble) (row col : Nat) :
    SpriteOn s x y n row col ↔ originRow s y + 0 ≤ row ∧ row < originRow s y + 0 + n.toNat ∧ row < 32 ∧
      originCol s x ≤ col ∧ col < originCol s x + 8 ∧ col < 64 ∧
      ((s.setReg vf 0).readMem (effAddr (s.setReg vf 0) (row - originRow s y))).getLsbD
        (7 - (col - originCol s x)) = true := by
  rw [originRow_eq_mod, originCol_eq_mod]
  rfl

/-- Dxyn whose rows lie in memory raises no fault (R165). -/
theorem exec_drw_inside {x y : Reg} {n : Nibble} {s : State} (h : s.i.toNat + n.toNat ≤ 0x1000 ∨ n.toNat = 0) :
    exec (.drw x y n) s = .next (drawRows (originCol s x) (originRow s y) 0 n.toNat (s.setReg vf 0)) :=
  checked_inside h.symm

/-- A draw that passes its range check changes VF, FB and REDRAW only (R162). -/
theorem drw_frame_inside {x y : Reg} {n : Nibble} {s t : State}
    (hin : s.i.toNat + n.toNat ≤ 0x1000 ∨ n.toNat = 0) (h : exec (.drw x y n) s = .next t) :
    SameRegsBut [15] s t ∧ SameMemory s t ∧ t = { s with v := t.v, fb := t.fb, redraw := t.redraw } := by
  rcases drw_cases h with ⟨hn, hout, -⟩ | ⟨hregs, hframe, -⟩
  · omega
  · exact ⟨fun r hr => hregs r (List.ne_of_not_mem_cons hr), fun a => by rw [hframe]; rfl, hframe⟩

/-- Settles O34: `drawRows_spec` for the pixels of `SpriteOn`, on the state with VF cleared. -/
theorem drawXorsClippedSprite : Obligations.DrawXorsClippedSprite := by
  classical
  refine fun x y n s => ⟨fun hin => ?_, fun hn hout => checked_outside hn (by rw [effAddr]; omega)⟩
  obtain ⟨hpixel, -, hhit, hmiss, hredraw⟩ := drawRows_spec (originCol s x) (originRow s y) 0 n.toNat
    (s.setReg vf 0) (SpriteOn s x y n) (spriteOn_iff s x y n)
  exact ⟨_, exec_drw_inside hin, fun row col _ hcol =>
    ⟨fun hon => (hpixel row col hcol).trans (if_pos hon), fun hoff => (hpixel row col hcol).trans (if_neg hoff)⟩,
    hhit, fun hno => (hmiss hno).trans (State.reg_setReg_same s 15 0), hredraw,
    drw_frame_inside hin (exec_drw_inside hin)⟩

/-! ### Two draws -/

/-- Which pixels lie under the sprite depends on V[x], V[y], I and memory alone. -/
theorem spriteOn_congr {s t : State} {x y : Reg} (hx : t.reg x = s.reg x) (hy : t.reg y = s.reg y)
    (hi : t.i = s.i) (hmem : SameMemory s t) (n : Nibble) (row col : Nat) :
    SpriteOn t x y n row col ↔ SpriteOn s x y n row col := by
  simp only [SpriteOn, effAddr, hx, hy, hi, hmem _]

/-- Only pixels inside the window lie under the sprite (R162). -/
theorem spriteOn_inWindow {s : State} {x y : Reg} {n : Nibble} {row col : Nat} (h : SpriteOn s x y n row col) :
    row < 32 ∧ col < 64 := by
  obtain ⟨-, -, hrow, -, -, hcol, -⟩ := h
  exact ⟨hrow, hcol⟩

/-- A byte that is 1 or 0 by a condition is 1 exactly under it. -/
theorem eq_one_iff_of_one_or_zero {b : Byte} {p : Prop} (hone : p → b = 1) (hzero : ¬ p → b = 0) : b = 1 ↔ p := by
  refine ⟨fun hb => by_contra fun hp => ?_, hone⟩
  rw [hzero hp] at hb
  exact absurd hb (by decide)

/-- Settles O35: both draws invert the same pixels, so the second puts each of them back, and it finds on exactly
those that were off before the first. -/
theorem drawTwiceRestoresScreen : Obligations.DrawTwiceRestoresScreen := by
  intro x y n s t hx hy hin hst
  obtain ⟨hregs, hmem, hframe⟩ := drw_frame_inside hin hst
  have hi : t.i = s.i := by rw [hframe]
  have hon := spriteOn_congr (hregs x (by simpa using hx)) (hregs y (by simpa using hy)) hi hmem n
  obtain ⟨t', hst', hfirst, -⟩ := (drawXorsClippedSprite x y n s).1 hin
  obtain ⟨u, htu, hsecond, hhit, hmiss, -⟩ := (drawXorsClippedSprite x y n t).1 (hi ▸ hin)
  obtain rfl : t' = t := Host.Outcome.next.inj (hst'.symm.trans hst)
  refine ⟨u, htu, frame_ext fun row col hrow hcol => ?_, (eq_one_iff_of_one_or_zero hhit hmiss).trans ?_⟩
  · obtain ⟨hflip, hkeep⟩ := hfirst row col hrow hcol
    obtain ⟨hflip', hkeep'⟩ := hsecond row col hrow hcol
    by_cases h : SpriteOn s x y n row col
    · rw [hflip' ((hon row col).2 h), hflip h, Bool.not_not]
    · rw [hkeep' (mt (hon row col).1 h), hkeep h]
  · refine exists_congr fun row => exists_congr fun col => (and_congr_left' (hon row col)).trans ?_
    refine and_congr_right fun h => ?_
    obtain ⟨hrow, hcol⟩ := spriteOn_inWindow h
    rw [(hfirst row col hrow hcol).1 h, Bool.not_eq_true']

end Sys2Proof.Proofs
end

section
/-!
PROOFS. The keypad and timer family (44_keypad_timers.md).  What Fx0A does is said once per case, no key held or some
(`exec_ldVxK_of_no_key`, `exec_ldVxK_of_key`); the ticks are an induction over how many there are, each taking 1 off
either timer.
-/
namespace Sys2Proof.Proofs
open Sys2Proof.Machine Sys2Proof.Safety

/-! ### Keys -/

/-- The key that Ex9E and ExA1 ask for is the bit of KEYS that V[x] numbers modulo 16 (R182). -/
theorem keyDown_namedKey (s : State) (x : Reg) :
    keyDown s (namedKey s x) = s.keys.getLsbD ((s.reg x).toNat % 16) := by
  rw [keyDown, namedKey, lowNibble_val]

/-- Settles O14: both are `skipIf` on the named key, ExA1 on its being up. -/
theorem keySkips : Obligations.KeySkips := by
  intro x s
  have hdown : keyDown s (namedKey s x) = true ↔ s.keys.getLsbD ((s.reg x).toNat % 16) = true := by
    rw [keyDown_namedKey]
  have hup : (!keyDown s (namedKey s x)) = true ↔ ¬ s.keys.getLsbD ((s.reg x).toNat % 16) = true := by
    rw [Bool.not_eq_true', ← Bool.not_eq_true, hdown]
  exact ⟨skipIf_eq s hdown, (skipIf_eq s hup).trans (by rw [ite_not])⟩

/-- Fx0A with no key held goes back to itself (R177). -/
theorem exec_ldVxK_of_no_key (x : Reg) {s : State} (h : s.keys = 0) :
    exec (.ldVxK x) s = .next (s.setPc (s.pc - 2)) := by
  obtain ⟨-, hnone⟩ | ⟨hheld, -⟩ := pressedKey_cases s
  · simp only [exec, execLdVxK, hnone]
  · exact absurd h hheld

/-- Fx0A with a key held writes the index of one that is (R177, R217). -/
theorem exec_ldVxK_of_key (x : Reg) {s : State} (h : s.keys ≠ 0) :
    ∃ k : Reg, s.keys.getLsbD k.val = true ∧ exec (.ldVxK x) s = .next (s.setReg x (keyByte k)) := by
  obtain ⟨hfree, -⟩ | ⟨-, k, hsome, hdown⟩ := pressedKey_cases s
  · exact absurd hfree h
  · exact ⟨k, hdown, by simp only [exec, execLdVxK, hsome]⟩

theorem toNat_keyByte (k : Reg) : (keyByte k).toNat = k.val :=
  Nat.mod_eq_of_lt (k.isLt.trans (by decide))

/-- Settles O37, by whether a key is held; the byte Fx0A writes has room for a key's index. -/
theorem keyWaitTakesHeldKey : Obligations.KeyWaitTakesHeldKey := by
  refine fun x s => ⟨exec_ldVxK_of_no_key x, fun hheld => ?_⟩
  obtain ⟨k, hdown, hexec⟩ := exec_ldVxK_of_key x hheld
  have hvalue : ((s.setReg x (keyByte k)).reg x).toNat = k.val := by
    rw [State.reg_setReg_same, toNat_keyByte]
  exact ⟨_, k, hexec, hdown, hvalue, onlyRegs_setReg_self s x _⟩

/-- Settles O38: going back by 2 undoes the advance of the fetch, and the cycle does nothing more. -/
theorem keyWaitSpins : Obligations.KeyWaitSpins := by
  intro x s hrun hsched hpc hdec hfree
  have hback : s.pc + 2 - 2 = s.pc := add_sub_cancel_right s.pc 2
  calc step s
    _ = exec (.ldVxK x) s.advance := by rw [step_eq_cycle hsched, cycle_of_fetchable hrun hpc, hdec]
    _ = .next (s.advance.setPc (s.pc + 2 - 2)) := exec_ldVxK_of_no_key x hfree
    _ = .next s := by rw [hback]; rfl

/-! ### Timers -/

/-- Settles O36: each of the three is one write, of V[x] or of a timer. -/
theorem timerMoves : Obligations.TimerMoves := fun x s =>
  ⟨⟨_, rfl, State.reg_setReg_same s x s.dt, onlyRegs_setReg_self s x s.dt⟩,
    ⟨s.setDt (s.reg x), rfl, rfl, fun _ => rfl, rfl⟩,
    ⟨s.setSt (s.reg x), rfl, rfl, fun _ => rfl, rfl⟩⟩

/-- The first of n + 1 ticks is taken on the state itself, whether or not it is halted (R184). -/
theorem performAll_ticks_succ (n : Nat) (s : State) :
    performAll (List.replicate (n + 1) (.run .tick)) s = performAll (List.replicate n (.run .tick)) (tick s) :=
  rfl

/-- Settles O39, by induction on the number of ticks: the first takes 1 off each timer, the others take n. -/
theorem ticksCountDownToZero : Obligations.TicksCountDownToZero := by
  intro n
  induction n with
  | zero => exact fun s => ⟨s, rfl, rfl, rfl, fun _ => rfl, rfl⟩
  | succ n ih =>
    intro s
    obtain ⟨t, hrun, hdt, hst, hmem, hframe⟩ := ih (tick s)
    have hsub (b : Byte) : (tickDown b).toNat - n = b.toNat - (n + 1) := by
      rw [tickDown_toNat]
      omega
    exact ⟨t, (performAll_ticks_succ n s).trans hrun, hdt.trans (hsub s.dt), hst.trans (hsub s.st), hmem, hframe⟩

end Sys2Proof.Proofs
end

section
/-!
PROOFS. The exceptions family (60_exceptions.md).  That every step answers is said from the bottom up, instruction,
cycle, event, step.  When an instruction raises which fault is one `↔` for all three (`exec_fault_iff`, over
`RaisedWhen`); that a fault changes nothing else is read from the effects of `exec_effect`.  The halted state is an
induction over the events, each of them within `HaltedFrame`; legal orders are inductions along `Phase.after`.
-/
namespace Sys2Proof.Proofs
open Sys2Proof.Machine Sys2Proof.Safety

/-! ### Every step answers -/

theorem checked_answers (a len : Nat) (s u : State) : ∃ t, checked a len s (.next u) = .next t := by
  by_cases h : len = 0 ∨ a + len ≤ 0x1000
  · exact ⟨u, checked_inside h⟩
  · exact ⟨_, checked_outside (by omega) (by omega)⟩

/-- No arm refuses: an instruction completes, or raises a fault, which is a next state too (R200, R207). -/
theorem exec_answers (i : Instr) (s : State) : ∃ t, exec i s = .next t := by
  cases i with
  | ret =>
    by_cases h : 0 < s.sp.val
    · exact ⟨_, dif_pos h⟩
    · exact ⟨_, dif_neg h⟩
  | call nnn =>
    by_cases h : s.sp.val < 16
    · exact ⟨_, dif_pos h⟩
    · exact ⟨_, dif_neg h⟩
  | ldVxK x =>
    by_cases h : s.keys = 0
    · exact ⟨_, exec_ldVxK_of_no_key x h⟩
    · obtain ⟨k, -, hexec⟩ := exec_ldVxK_of_key x h
      exact ⟨_, hexec⟩
  | drw | ldB | storeRegs | loadRegs => exact checked_answers _ _ _ _
  | _ => exact ⟨_, rfl⟩

theorem cycle_answers (s : State) : ∃ t, cycle s = .next t := by
  cases hf : s.fault with
  | some f => exact ⟨s, cycle_of_halted hf⟩
  | none =>
    by_cases hpc : s.pc.toNat + 1 ≤ 0xFFF
    · rw [cycle_of_fetchable hf hpc]
      exact exec_answers _ _
    · exact ⟨_, cycle_of_outside hf (Nat.lt_of_not_le hpc)⟩

/-- Settles O10: the three events beside the cycle are plain updates. -/
theorem everyStepAnswersNext : Obligations.EveryStepAnswersNext := by
  intro s
  unfold step
  cases s.nextEvent with
  | step => exact cycle_answers _
  | tick | ackRedraw | keys => exact ⟨_, rfl⟩

/-! ### When a fault is raised, and what it changes -/

/-- The condition under which an instruction raises a fault (R201 to R203). -/
def RaisedWhen (i : Instr) (s : State) (f : Fault) : Prop :=
  match f with
  | .stackOverflow => (∃ nnn, i = .call nnn) ∧ s.sp.val = 16
  | .stackUnderflow => i = .ret ∧ s.sp.val = 0
  | .memoryOutOfRange => OutOfRange i s

theorem canFault_of_raisedWhen {i : Instr} {s : State} {f : Fault} (h : RaisedWhen i s f) : CanFault i := by
  cases f with
  | stackOverflow => exact .inl h.1
  | stackUnderflow => exact .inr (.inl h.1)
  | memoryOutOfRange =>
    obtain ⟨x, y, n, rfl, -⟩ | ⟨x, rfl, -⟩ | ⟨x, rfl, -⟩ | ⟨x, rfl, -⟩ := h <;> simp [CanFault]

/-- An instruction that leaves a fault behind has done nothing else (R211). -/
theorem exec_eq_setFault_of_fault {i : Instr} {s t : State} {f : Fault} (hrun : Running s)
    (h : exec i s = .next t) (hf : t.fault = some f) : CanFault i ∧ t = s.setFault (some f) := by
  cases exec_effect h with
  | fault g hi => exact ⟨hi, congrArg s.setFault hf⟩
  | _ => exact absurd (hrun.symm.trans hf) (Option.some_ne_none f).symm

/-- A rule behind a range check faults exactly when the range leaves memory (R56). -/
theorem checked_fault_iff {a len : Nat} {s t u : State} {f : Fault} (hu : u.fault = none)
    (h : checked a len s (.next u) = .next t) :
    t.fault = some f ↔ f = .memoryOutOfRange ∧ 1 ≤ len ∧ 0x1000 < a + len := by
  obtain ⟨hlen, hout, rfl⟩ | ⟨hin, h⟩ := checked_cases h
  · simp [hlen, hout, eq_comm]
  · cases h
    simp only [hu, reduceCtorEq, false_iff]
    omega

@[simp] theorem fault_drawRows (x0 y0 r count : Nat) (s : State) : (drawRows x0 y0 r count s).fault = s.fault := by
  rw [(drawRows_frame x0 y0 r count s).2]

@[simp] theorem fault_loadRegsFrom (s : State) (count : Nat) : (loadRegsFrom s count).fault = s.fault := by
  rw [(loadRegsFrom_spec s count).2]

theorem exec_call_fault_iff {nnn : Addr12} {s t : State} {f : Fault} (hrun : Running s)
    (h : exec (.call nnn) s = .next t) : t.fault = some f ↔ f = .stackOverflow ∧ s.sp.val = 16 := by
  by_cases hroom : s.sp.val < 16
  · cases (exec_call_of_room nnn hroom).symm.trans h
    have hnone : s.fault = none := hrun
    simp [hnone, hroom.ne]
  · have hfull : s.sp.val = 16 := by omega
    cases (exec_call_of_full nnn hfull).symm.trans h
    simp [hfull, eq_comm]

theorem exec_ret_fault_iff {s t : State} {f : Fault} (hrun : Running s) (h : exec .ret s = .next t) :
    t.fault = some f ↔ f = .stackUnderflow ∧ s.sp.val = 0 := by
  by_cases hempty : s.sp.val = 0
  · cases (exec_ret_of_empty hempty).symm.trans h
    simp [hempty, eq_comm]
  · have hpos : 0 < s.sp.val := Nat.pos_of_ne_zero hempty
    cases (show exec .ret s = .next ((s.setPc (s.top hpos)).pop) from dif_pos hpos).symm.trans h
    have hnone : s.fault = none := hrun
    simp [hnone, hempty]

/-- An instruction leaves a fault behind exactly under that fault's condition (R201 to R203). -/
theorem exec_fault_iff {i : Instr} {s t : State} {f : Fault} (hrun : Running s) (h : exec i s = .next t) :
    t.fault = some f ↔ RaisedWhen i s f := by
  by_cases hi : CanFault i
  · obtain ⟨nnn, rfl⟩ | rfl | ⟨x, y, n, rfl⟩ | ⟨x, rfl | rfl | rfl⟩ := hi
    · exact (exec_call_fault_iff hrun h).trans (by cases f <;> simp [RaisedWhen, OutOfRange])
    · exact (exec_ret_fault_iff hrun h).trans (by cases f <;> simp [RaisedWhen, OutOfRange])
    -- The four accesses to memory: each is one range check before its writes.
    all_goals
      have hnone : s.fault = none := hrun
      refine (checked_fault_iff (by simp [hnone]) h).trans ?_
      cases f <;> simp [RaisedWhen, OutOfRange, effAddr]
      omega
  · exact iff_of_false (fun hf => hi (exec_eq_setFault_of_fault hrun h hf).1) (mt canFault_of_raisedWhen hi)

/-- Settles O42: `exec_fault_iff` at each of the three faults. -/
theorem faultsAriseExactlyWhen : Obligations.FaultsAriseExactlyWhen := fun _ _ _ hrun h =>
  ⟨exec_fault_iff hrun h, exec_fault_iff hrun h, exec_fault_iff hrun h⟩

/-- Settles O43: behind a fetch it is the executed instruction that faults, otherwise the fetch itself. -/
theorem faultsArePrecise : Obligations.FaultsArePrecise := by
  refine fun s t f hrun hev h hf => ⟨fun hpc => ?_, fun hpc => ?_⟩
  · rw [step_of_fetchable hrun hev hpc] at h
    exact (exec_eq_setFault_of_fault (s := { s with pc := s.pc + 2, sched := s.sched.tail }) hrun h hf).2
  · cases (step_of_outside hrun hev hpc).symm.trans h
    cases hf
    rfl

/-! ### The events, one by one -/

/-- A step takes the event that comes first on the schedule (R214). -/
theorem step_of_sched {s : State} {e : RunEvent} {es : List RunEvent} (h : s.sched = e :: es) :
    step s = runEvent e { s with sched := es } := by
  simp only [step, State.nextEvent, State.dropEvent, State.setSched, h, List.tail_cons]

/-- Settles O40: the event at the head of the schedule acts on the state without it. -/
theorem scheduledEventsAct : Obligations.ScheduledEventsAct := fun s _ =>
  ⟨fun h => ⟨_, step_of_sched h, tickDown_toNat s.dt, tickDown_toNat s.st, rfl⟩, step_of_sched,
    fun _ => step_of_sched⟩

/-! ### The halted state -/

/-- Settles O8: taking the event off the schedule leaves FAULT, so the cycle is one of a halted core. -/
theorem haltedCycleDoesNothing : Obligations.HaltedCycleDoesNothing := by
  intro s f hf hev
  unfold step
  rw [hev]
  exact cycle_of_halted (s := s.dropEvent) hf

/-- What the events may change on a halted core (R184, R208): the timers, REDRAW and KEYS. -/
def HaltedFrame (s t : State) : Prop := t = { s with dt := t.dt, st := t.st, redraw := t.redraw, keys := t.keys }

theorem HaltedFrame.fault {s t : State} (h : HaltedFrame s t) : t.fault = s.fault :=
  (congrArg State.fault h :)

theorem HaltedFrame.trans {s t u : State} (hst : HaltedFrame s t) (htu : HaltedFrame t u) : HaltedFrame s u :=
  Eq.trans htu (by rw [hst])

theorem runEvent_of_halted {s : State} {f : Fault} (hf : s.fault = some f) (e : RunEvent) :
    ∃ t, runEvent e s = .next t ∧ HaltedFrame s t := by
  cases e with
  | step => exact ⟨s, cycle_of_halted hf, rfl⟩
  | tick | ackRedraw | keys => exact ⟨_, rfl, rfl⟩

/-- A history goes on from where its first event leads (R12). -/
theorem performAll_cons_of_next {e : Event} {es : List Event} {s t : State} (h : perform e s = .next t) :
    performAll (e :: es) s = performAll es t := by
  rw [performAll, h]

/-- Settles O9, by induction on the events: the first keeps FAULT, so the others find the core halted too. -/
theorem haltedStateIsSticky : Obligations.HaltedStateIsSticky := by
  intro es
  induction es with
  | nil => exact fun s _ _ => ⟨s, rfl, rfl⟩
  | cons e es ih =>
    intro s f hf
    obtain ⟨t, hfirst, hst⟩ := runEvent_of_halted hf e
    obtain ⟨u, hrest, htu⟩ := ih t f (hst.fault.trans hf)
    exact ⟨u, (performAll_cons_of_next (e := .run e) hfirst).trans hrest, hst.trans htu⟩

/-! ### Legal orders -/

/-- An image fits behind the load offset up to 3584 bytes (R243, R244). -/
theorem romTooLarge_iff {bytes : List Byte} :
    Config.memSize < Config.romBase + bytes.length ↔ 3584 < bytes.length := by
  simp only [Config.memSize, Config.romBase]
  omega

theorem after_fresh_loadRom_of_fits {bytes : List Byte} (h : bytes.length ≤ 3584) :
    Phase.fresh.after (.loadRom bytes) = some .loaded :=
  congrArg some (if_neg (mt romTooLarge_iff.1 h.not_gt))

theorem after_fresh_loadRom_of_tooLong {bytes : List Byte} (h : 3584 < bytes.length) :
    Phase.fresh.after (.loadRom bytes) = some .fresh :=
  congrArg some (if_pos (romTooLarge_iff.2 h))

theorem after_loaded_loadRom_of_fits {bytes : List Byte} (h : bytes.length ≤ 3584) :
    Phase.loaded.after (.loadRom bytes) = none :=
  if_neg (mt romTooLarge_iff.1 h.not_gt)

theorem after_running_run (e : RunEvent) : Phase.running.after (.run e) = some .running := by
  cases e <;> rfl

/-- Once the core has been reset, every run-time event is legal, and never takes that back (R215). -/
theorem after_run_of_born {p : Phase} (hp : p ≠ .unborn) (e : RunEvent) :
    ∃ q, q ≠ .unborn ∧ p.after (.run e) = some q := by
  cases p with
  | unborn => exact absurd rfl hp
  | fresh | loaded | running =>
    cases e with
    | keys k => exact ⟨_, hp, rfl⟩
    | step | tick | ackRedraw => exact ⟨.running, by decide, rfl⟩

theorem legalFrom_cons_of_some {p q : Phase} {e : Event} {es : List Event} (h : p.after e = some q) :
    legalFrom p (e :: es) = legalFrom q es := by
  rw [legalFrom, h]

theorem legalFrom_cons_of_none {p : Phase} {e : Event} {es : List Event} (h : p.after e = none) :
    legalFrom p (e :: es) = false := by
  rw [legalFrom, h]

theorem legalFrom_runs {p : Phase} (hp : p ≠ .unborn) (es : List RunEvent) : legalFrom p (es.map .run) = true := by
  induction es generalizing p with
  | nil => rfl
  | cons e es ih =>
    obtain ⟨q, hq, hafter⟩ := after_run_of_born hp e
    exact (legalFrom_cons_of_some hafter).trans (ih hq)

/-- Loads that fail are legal after a reset and leave the core as fresh as it was (R215, R244). -/
theorem legalFrom_failed_loads {tooLong : List (List Byte)} (h : ∀ b ∈ tooLong, 3584 < b.length) (es : List Event) :
    legalFrom .fresh (tooLong.map .loadRom ++ es) = legalFrom .fresh es := by
  induction tooLong with
  | nil => rfl
  | cons b tooLong ih =>
    obtain ⟨hb, hrest⟩ := List.forall_mem_cons.1 h
    exact (legalFrom_cons_of_some (after_fresh_loadRom_of_tooLong hb)).trans (ih hrest)

/-- Without a `Reset` a running core stays running, and a load is not legal there (R215). -/
theorem no_load_while_running {es : List Event} (hes : .reset ∉ es) (bytes : List Byte) :
    legalFrom .running (es ++ [.loadRom bytes]) = false := by
  induction es with
  | nil => rfl
  | cons e es ih =>
    obtain ⟨hne, hrest⟩ := List.ne_and_not_mem_of_not_mem_cons hes
    cases e with
    | reset => exact absurd rfl hne
    | loadRom => rfl
    | run r => exact (legalFrom_cons_of_some (after_running_run r)).trans (ih hrest)

/-- Settles O53: each order is followed along `Phase.after`, the lists in it by induction. -/
theorem noLoadOnceRunning : Obligations.NoLoadOnceRunning := by
  refine ⟨fun es bytes hes => no_load_while_running hes bytes, fun a b es ha hb => ?_, fun e es hkeys => ?_,
    fun tooLong bytes es hlong hfits => ?_⟩
  · exact (legalFrom_cons_of_some (after_fresh_loadRom_of_fits ha)).trans
      (legalFrom_cons_of_none (after_loaded_loadRom_of_fits hb))
  · cases e with
    | keys k => exact absurd rfl (hkeys k)
    | step | tick | ackRedraw => rfl
  · have hload : legalFrom .fresh (.loadRom bytes :: es.map .run) = true :=
      (legalFrom_cons_of_some (after_fresh_loadRom_of_fits hfits)).trans (legalFrom_runs (by decide) es)
    exact ⟨(legalFrom_failed_loads hlong _).trans hload,
      (legalFrom_failed_loads hlong _).trans (legalFrom_runs (by decide) es)⟩

end Sys2Proof.Proofs
end

section
/-!
PROOFS. The reset and hazards family (70_reset_and_hazards.md).  What `LoadRom` answers is said once per case, an image
that fits or one too long (`loadRom_of_fits`, `loadRom_of_tooLong`), and what memory reads after `Reset` is the reset
image (`readMem_resetEvent`); who writes DT is read from the effects of `exec_effect`.
-/
namespace Sys2Proof.Proofs
open Sys2Proof.Machine Sys2Proof.Safety

/-! ### The delay timer -/

theorem exec_dt {i : Instr} {s t : State} (h : exec i s = .next t) :
    t.dt = s.dt ∨ ∃ x, i = .ldDtVx x ∧ t.dt = s.reg x := by
  cases exec_effect h with
  | delay x hi => exact .inr ⟨x, hi, rfl⟩
  | _ => exact .inl rfl

theorem cycle_dt {s t : State} (h : cycle s = .next t) :
    t.dt = s.dt ∨ ∃ x, decode (opcodeAt s) = .ldDtVx x ∧ t.dt = s.reg x := by
  rcases cycle_cases h with ⟨-, rfl⟩ | ⟨-, -, rfl⟩ | ⟨-, -, hexec⟩
  · exact .inl rfl
  · exact .inl rfl
  · exact exec_dt (s := s.advance) hexec

/-- Settles O41: a tick only lowers DT, the other two events leave it, and a cycle writes it by Fx15 alone. -/
theorem delayTimerOnlyFallsOrIsSet : Obligations.DelayTimerOnlyFallsOrIsSet := by
  intro s t h hlt
  rcases step_cases h with ⟨hev, hc⟩ | ⟨-, rfl⟩ | ⟨-, rfl⟩ | ⟨k, -, rfl⟩
  · refine ⟨hev, (cycle_dt hc).resolve_left fun hsame => ?_⟩
    rw [hsame] at hlt
    exact hlt.false
  · have hfall : (tick s.dropEvent).dt.toNat = s.dt.toNat - 1 := tickDown_toNat s.dt
    omega
  · exact absurd hlt (Nat.lt_irrefl s.dt.toNat)
  · exact absurd hlt (Nat.lt_irrefl s.dt.toNat)

/-! ### Loading an image -/

theorem loadRom_of_fits {bytes : List Byte} (h : bytes.length ≤ 3584) (s : State) :
    loadRom bytes s = .loaded (s.writeMemBytes 0x200 bytes) :=
  if_neg (mt romTooLarge_iff.1 h.not_gt)

theorem loadRom_of_tooLong {bytes : List Byte} (h : 3584 < bytes.length) (s : State) :
    loadRom bytes s = .romTooLarge :=
  if_pos (romTooLarge_iff.2 h)

theorem perform_loadRom_of_loaded {bytes : List Byte} {s t : State} (h : loadRom bytes s = .loaded t) :
    perform (.loadRom bytes) s = .next t := by
  rw [perform, h]

theorem perform_loadRom_of_romTooLarge {bytes : List Byte} {s : State} (h : loadRom bytes s = .romTooLarge) :
    perform (.loadRom bytes) s = .next s := by
  rw [perform, h]

/-- Settles O52: an image that fits ends at or below 0x1000, so each of its bytes is stored at an existing address. -/
theorem loadRomCopiesOrRefuses : Obligations.LoadRomCopiesOrRefuses := by
  refine fun bytes s hwf => ⟨fun hfits => ?_, fun hlong => ?_⟩
  · have hload := loadRom_of_fits hfits s
    have hend : 0x200 + bytes.length ≤ Config.memSize := Nat.add_le_add_left hfits 0x200
    exact ⟨_, hload, perform_loadRom_of_loaded hload, fun _ hk => Memory.read_writeBytes_inside hwf hend hk,
      onlyBytes_writeMemBytes s 0x200 bytes⟩
  · have hload := loadRom_of_tooLong hlong s
    exact ⟨hload, perform_loadRom_of_romTooLarge hload⟩

/-! ### Reset -/

/-- Settles O50: the fields are those of `State.reset`, with the inputs and the schedule of the state before. -/
theorem resetEventLeavesDecidedValues : Obligations.ResetEventLeavesDecidedValues := fun s =>
  ⟨resetEvent s, rfl, fun r => Vector.getElem_replicate r.isLt, rfl, rfl, rfl, rfl, rfl,
    fun _ _ => BitVec.getLsbD_zero, rfl, rfl, rfl, rfl, rfl⟩

theorem font_length : font.length = 80 := by decide

/-- `Reset` leaves the reset image as a whole (R242). -/
theorem readMem_resetEvent (s : State) (a : Nat) : (resetEvent s).readMem a = resetByte a := rfl

theorem resetByte_font {k : Nat} (h : k < font.length) : resetByte (0x050 + k) = font[k] := by
  have hbase : Config.fontBase ≤ 0x050 + k := Nat.le_add_right 0x050 k
  have hsub : 0x050 + k - Config.fontBase = k := Nat.add_sub_cancel_left 0x050 k
  rw [resetByte, if_pos hbase, hsub, List.getD_eq_getElem _ _ h]

theorem resetByte_outside_font {a : Nat} (h : a < 0x050 ∨ 0x09F < a) : resetByte a = 0 := by
  rcases h with hbelow | habove
  · exact if_neg hbelow.not_ge
  · have hpast : font.length ≤ a - Config.fontBase := by
      rw [font_length, Config.fontBase]
      omega
    rw [resetByte, List.getD_eq_default _ _ hpast, ite_self]

/-- Settles O51: memory reads as the reset image, whose font is 80 bytes long. -/
theorem resetMemoryImage : Obligations.ResetMemoryImage :=
  ⟨font_length, fun s => ⟨resetEvent s, rfl, fun k h => (readMem_resetEvent s (0x050 + k)).trans (resetByte_font h),
    fun a h => (readMem_resetEvent s a).trans (resetByte_outside_font h)⟩⟩

end Sys2Proof.Proofs
end
